-- ==== Sys2Proof/Word.lean ====
section
/-! DEFINITION. The word types of the machine (00_scope.md R6, R8): storage units and encoding fields, bit 0 the least
significant. -/
namespace Sys2Proof

/-- A Word: the 16-bit storage unit of a register, of the program counter, and of an instruction (R6, R20, R80). -/
abbrev Word := BitVec 16

/-- A Byte: the 8-bit storage unit of memory (R6, R32). -/
abbrev Byte := BitVec 8

/-- A 4-bit field of an instruction word (R81). -/
abbrev Nibble := BitVec 4

/-- A 4-bit register index, 0 to 15, so always in range (R20, R22). -/
abbrev RegIdx := BitVec 4

end Sys2Proof
end

