-- ==== Sys2Proof/Syntax.lean ====
section
/-! DEFINITION. The instructions: one constructor per row of spec/opcode_table.json, with the operand fields that the
instruction uses (30_encoding.md R85, R86). Fields the spec marks "ignored" are no operands (R87). -/
namespace Sys2Proof

/-- An instruction. Operand names follow the fields of the word: `r`, `s`, `t` and the immediate `xy` (R81, R84). -/
inductive Instr where
  /-- 0x1 LOADM: register `r` from memory address `xy` (R130). -/
  | loadm (r : RegIdx) (xy : Byte)
  /-- 0x2 LOADI: register `r` from the literal `xy` (R131). -/
  | loadi (r : RegIdx) (xy : Byte)
  /-- 0x3 STORE: low byte of register `r` to memory address `xy` (R132). -/
  | store (r : RegIdx) (xy : Byte)
  /-- 0x4 MOVE: `r` is the SOURCE and `s` the DESTINATION (R133, C1). -/
  | move (r s : RegIdx)
  /-- 0x5 ADD: register `r` gets `s` plus `t` (R140). -/
  | add (r s t : RegIdx)
  /-- 0x6 FADD: `t` is a raw 4-bit PackedFloat, not a register number (R158). -/
  | fadd (r s : RegIdx) (t : Nibble)
  /-- 0x7 OR (R141). -/
  | or (r s t : RegIdx)
  /-- 0x8 AND (R142). -/
  | and (r s t : RegIdx)
  /-- 0x9 XOR (R143). -/
  | xor (r s t : RegIdx)
  /-- 0xA ROR: `s` is the rotate amount, not a register number (R145). -/
  | ror (r : RegIdx) (s : Nibble)
  /-- 0xB JUMP to the address in register `r` (R171). -/
  | jump (r : RegIdx)
  /-- 0xC HALT, explicit (R173). -/
  | halt
  /-- 0xD BGTJMP: to `xy` if register `r` is greater than register 0, signed (R172). -/
  | bgtjmp (r : RegIdx) (xy : Byte)
  /-- 0x0, unrecognised: an implicit HALT (R90, R173). -/
  | haltOp0
  /-- 0xE, unrecognised: an implicit HALT (R90, R173). -/
  | haltOpE
  /-- 0xF, unrecognised: an implicit HALT (R90, R173). -/
  | haltOpF
deriving DecidableEq, Repr

end Sys2Proof
end

