-- ==== Sys2Proof/WellFormed.lean ====
section
/-! DEFINITION. Well-formedness. "malformed encoded fields cannot occur because fields are always exactly 4 bits wide by
construction" (30_encoding.md R82): the operand types are exactly the fields, so every `Instr` is well formed. What can
be ill formed is an instruction WORD as an assembler writes it: the canonical encoding puts 0 in every ignored field
(R87, R98). The machine runs every word, canonical or not. -/
namespace Sys2Proof

/-- Every instruction is well formed: its operand types have exactly the widths of R81 and R84. -/
def Instr.wf : Instr → Bool
  | .loadm _ _ => true
  | .loadi _ _ => true
  | .store _ _ => true
  | .move _ _ => true
  | .add _ _ _ => true
  | .fadd _ _ _ => true
  | .or _ _ _ => true
  | .and _ _ _ => true
  | .xor _ _ _ => true
  | .ror _ _ => true
  | .jump _ => true
  | .halt => true
  | .bgtjmp _ _ => true
  | .haltOp0 => true
  | .haltOpE => true
  | .haltOpF => true

/-- The bits of an instruction word that its opcode ignores (R85, R87): t of MOVE and ROR, s and t of JUMP, r, s and t
of every HALT. -/
def ignoredMask (op : Nibble) : Word :=
  match op with
  | 0x4#4 => 0x000F#16
  | 0xA#4 => 0x000F#16
  | 0xB#4 => 0x00FF#16
  | 0x0#4 => 0x0FFF#16
  | 0xC#4 => 0x0FFF#16
  | 0xE#4 => 0x0FFF#16
  | 0xF#4 => 0x0FFF#16
  | _ => 0x0000#16

/-- A word in the canonical encoding of R98: every ignored field holds 0. -/
def isCanonicalWord (w : Word) : Bool :=
  w &&& ignoredMask (w.extractLsb' 12 4) == 0x0000#16

/-- The canonical word of the same instruction: ignored fields set to 0 (R87, R98). -/
def canonicalWord (w : Word) : Word :=
  w &&& ~~~ ignoredMask (w.extractLsb' 12 4)

end Sys2Proof
end

