-- ==== Sys2Proof/Decode.lean ====
section
/-! DEFINITION. The instruction decoder's field extraction and the opcode map (30_encoding.md R80 to R91), and after it
the encoder to canonical words (R98). -/
namespace Sys2Proof

/-- `op = ir[15:12]` (R81). -/
def opField (ir : Word) : Nibble := ir.extractLsb' 12 4

/-- `r = ir[11:8]` (R81). -/
def rField (ir : Word) : Nibble := ir.extractLsb' 8 4

/-- `s = ir[7:4]` (R81). -/
def sField (ir : Word) : Nibble := ir.extractLsb' 4 4

/-- `t = ir[3:0]` (R81). -/
def tField (ir : Word) : Nibble := ir.extractLsb' 0 4

/-- `XY = (s << 4) | t`, the 8-bit immediate (R84). -/
def immediate (s t : Nibble) : Byte := (s.setWidth 8 <<< 4) ||| t.setWidth 8

/-- The opcode map over the four extracted fields (R85, R86). The last arm is opcode 0xF, the only value left. -/
def decodeFields (op r s t : Nibble) : Instr :=
  match op with
  | 0x0#4 => .haltOp0
  | 0x1#4 => .loadm r (immediate s t)
  | 0x2#4 => .loadi r (immediate s t)
  | 0x3#4 => .store r (immediate s t)
  | 0x4#4 => .move r s
  | 0x5#4 => .add r s t
  | 0x6#4 => .fadd r s t
  | 0x7#4 => .or r s t
  | 0x8#4 => .and r s t
  | 0x9#4 => .xor r s t
  | 0xA#4 => .ror r s
  | 0xB#4 => .jump r
  | 0xC#4 => .halt
  | 0xD#4 => .bgtjmp r (immediate s t)
  | 0xE#4 => .haltOpE
  | _ => .haltOpF

/-- The decoder: total on all 65536 words; there is no decode fault (R82, R91, R113). -/
def decodeWord (ir : Word) : Instr :=
  decodeFields (opField ir) (rField ir) (sField ir) (tField ir)

/-- The instruction word of two bytes: the byte at the lower address is the high byte (20_memory.md R52, R53). -/
def wordOfBytes (hi lo : Byte) : Word := hi ++ lo

/-- The two bytes of an instruction word in memory order, high byte first (R52, R80). -/
def bytesOfWord (w : Word) : List Byte := [w.extractLsb' 8 8, w.extractLsb' 0 8]

/-- Why a string of bytes holds no instruction. The machine itself never meets this: a fetch always supplies two bytes
(R52, R56). -/
inductive DecodeError where
  /-- Fewer than the two bytes every instruction occupies (R80). -/
  | truncated
deriving DecidableEq, Repr

/-- The decoder on any bytes: the first two, high byte first, are the instruction; the rest is left over (R52, R80). -/
def decodeBytes : List Byte → Except DecodeError (Instr × List Byte)
  | hi :: lo :: rest => .ok (decodeWord (wordOfBytes hi lo), rest)
  | _ => .error .truncated

/-- The first `nbits` bits of `w`, as spec/opcode_table.json numbers them, as an instruction word; bits the table does
not give are 0. -/
def tableWord (nbits w : Nat) : Word := BitVec.ofNat 16 (w % 2 ^ nbits)

/-- The instruction this decoder reads from a table word laid out in memory order. It refuses a `w` of more than 16
bits, which no instruction has (R80). -/
def decodeTableWord (nbits w : Nat) : Option Instr :=
  if nbits ≤ 16 ∧ w < 2 ^ nbits then
    match decodeBytes (bytesOfWord (tableWord nbits w)) with
    | .ok (i, []) => some i
    | _ => none
  else none

/-- The opcode of an instruction (R86). -/
def Instr.opcode : Instr → Nibble
  | .loadm _ _ => 0x1#4
  | .loadi _ _ => 0x2#4
  | .store _ _ => 0x3#4
  | .move _ _ => 0x4#4
  | .add _ _ _ => 0x5#4
  | .fadd _ _ _ => 0x6#4
  | .or _ _ _ => 0x7#4
  | .and _ _ _ => 0x8#4
  | .xor _ _ _ => 0x9#4
  | .ror _ _ => 0xA#4
  | .jump _ => 0xB#4
  | .halt => 0xC#4
  | .bgtjmp _ _ => 0xD#4
  | .haltOp0 => 0x0#4
  | .haltOpE => 0xE#4
  | .haltOpF => 0xF#4

/-- The word with the four fields `op`, `r`, `s`, `t`, as four hexadecimal digits in that order (R81). -/
def packFields (op r s t : Nibble) : Word := op ++ r ++ s ++ t

/-- The high nibble of the immediate: the s field (R84). -/
def immediateHigh (xy : Byte) : Nibble := xy.extractLsb' 4 4

/-- The low nibble of the immediate: the t field (R84). -/
def immediateLow (xy : Byte) : Nibble := xy.extractLsb' 0 4

/-- The canonical encoding: 0 in every ignored field (R98). -/
def encode (i : Instr) : Word :=
  match i with
  | .loadm r xy => packFields i.opcode r (immediateHigh xy) (immediateLow xy)
  | .loadi r xy => packFields i.opcode r (immediateHigh xy) (immediateLow xy)
  | .store r xy => packFields i.opcode r (immediateHigh xy) (immediateLow xy)
  | .move r s => packFields i.opcode r s 0x0#4
  | .add r s t => packFields i.opcode r s t
  | .fadd r s t => packFields i.opcode r s t
  | .or r s t => packFields i.opcode r s t
  | .and r s t => packFields i.opcode r s t
  | .xor r s t => packFields i.opcode r s t
  | .ror r s => packFields i.opcode r s 0x0#4
  | .jump r => packFields i.opcode r 0x0#4 0x0#4
  | .halt => packFields i.opcode 0x0#4 0x0#4 0x0#4
  | .bgtjmp r xy => packFields i.opcode r (immediateHigh xy) (immediateLow xy)
  | .haltOp0 => packFields i.opcode 0x0#4 0x0#4 0x0#4
  | .haltOpE => packFields i.opcode 0x0#4 0x0#4 0x0#4
  | .haltOpF => packFields i.opcode 0x0#4 0x0#4 0x0#4

end Sys2Proof
end

