-- ==== Sys2Proof/Config.lean ====
section
/-! DEFINITION. The parameters of the core (00_scope.md R6, R7) and its one free value (43_packed_float.md R160). -/
namespace Sys2Proof

/-- PF_WRAP (R7, R157, decision D8): how the PackedFloat encoder packs a biased exponent outside 0 to 15. -/
inductive PfWrap where
  /-- The low 8 bits of the whole pack expression: the spec's decision and default. -/
  | trunc8
  /-- The exponent reduced to four bits before packing: the alternative the spec names. -/
  | mask4
deriving DecidableEq, Repr

namespace Config

/-- MEM_SIZE: addresses 0 to 255 exist (R6, R32). -/
abbrev memSize : Nat := 256

/-- NREGS: general registers 0 to 15 (R6, R20). -/
abbrev numRegs : Nat := 16

/-- REG_RESET: every register after reset (R40; the spec's decision D1). DESIGN CHOICE of the spec, unsafe: log 1. -/
abbrev regReset : Word := 0x0000#16

/-- PC_RESET: the program counter after reset (R41; kept as a parameter by D16). Log 12. -/
abbrev pcReset : Word := 0x0000#16

/-- What a memory byte that nothing has written reads as: memory is zero-filled at machine creation (R43). -/
abbrev memFill : Byte := 0x00#8

/-- PF_WRAP at the spec's default (R7, R157, D8). DESIGN CHOICE of the spec, unsafe: log 6. -/
abbrev pfWrap : PfWrap := .trunc8

/-- FADD_FALLTHROUGH at the spec's default (R7, R114, D7). DESIGN CHOICE of the spec, unsafe: log 5. -/
abbrev faddFallthrough : Bool := false

/-- FADD_ZERO_RESULT (R160, P1, U1): the byte that the n-th FADD with a zero sum writes. A free value: no body, so
nothing can be proved of it, and each such FADD draws afresh. Safe: log 7. -/
opaque faddZeroResult : Nat → Byte

end Config
end Sys2Proof
end

