-- ==== Sys2Proof/Machine/State.lean ====
section
/-! DEFINITION. The complete state of the core (10_state.md R20 to R34), the events it emits (R35), the reasons a step
or a host move stops, and the state after reset (R40 to R43). -/
namespace Sys2Proof.Machine

/-- The names of the architectural faults; there is exactly one (60_exceptions.md R180, R181). It has no number. -/
inductive ArchFault where
  /-- A step began with the program counter at or beyond 256. -/
  | pcOutOfBounds
deriving DecidableEq, Repr

/-- The observable output events (10_state.md R35). They have no effect on any state (R174, R182). -/
inductive Event where
  /-- A HALT executed; the event carries no data (R174, D14). -/
  | haltNotice
  /-- The fault was raised; the event carries its name and the offending program counter (R182, D13). -/
  | faultReport (cause : ArchFault) (pc : Word)
deriving DecidableEq, Repr

/-- The run state seen between steps (R29). Dispatching exists only inside a step and is never observed (D12). -/
inductive RunState where
  | fetching
  | halted
  | faulted
deriving DecidableEq, Repr

/-- Memory (R32) as the cells that differ from the fill byte 0x00 of R43, in one canonical form: addresses strictly
rising and below 256, no listed byte 0x00 (`Memory.wf`). An unlisted address reads as 0x00. -/
abbrev Memory := List Host.Cell

/-- The whole state of the core: sixteen registers, the program counter, two run flags and memory; "There is nothing
else" (10_state.md). `events` and `draws` are the model's own records and no part of the spec's state. -/
structure State where
  /-- The 16 general registers x[0] to x[15] (R20). -/
  regs : Vector Word 16
  /-- The program counter, 16 bits, unsigned (R25, D2). -/
  pc : Word
  /-- Set by HALT, cleared only by reset (R27). -/
  halted : Bool
  /-- Set by the PcOutOfBounds fault, cleared only by reset (R28). -/
  faulted : Bool
  /-- The 256 bytes M[0] to M[255] (R32). -/
  mem : Memory
  /-- The output events emitted since reset, oldest first (R35, R174, R182). No step reads it. -/
  events : List Event
  /-- How many free bytes have been drawn for FADD_ZERO_RESULT (R160, P1). The model's own counter: log 7. -/
  draws : Nat
deriving DecidableEq, Repr

/-- Why a step has no next state. These are the two terminal run states, the specified endings of a run (R110, R118). -/
inductive Fault where
  /-- `step` in run state Halted: "no step is ever taken again" (R110). Safe: the spec gives no next step there. -/
  | runEndedHalted
  /-- `step` in run state Faulted, entered by the step that raised PcOutOfBounds (R110, R181). Safe: as above. -/
  | runEndedFaulted
deriving DecidableEq, Repr

/-- Why the model does not offer a move. -/
inductive Refusal where
  /-- `exec` on an instruction that has no meaning yet; none is left. Safe. -/
  | notModelled (mnemonic : String)
  /-- The host's `load` outside the load phase: the host has no such move (R206, D17, U9). Raised by
  `Session.hostLoad`. Safe. -/
  | loadOutsideLoadPhase
  /-- A host read during the run phase, which the spec does not promise (R206, U9). Raised by the read moves of
  `Session`. Safe. -/
  | readDuringRun
  /-- A step before the host's `run` event: the core takes no step in the load phase (R203, R110). Raised by
  `Session.tick`. Safe. -/
  | runNotStarted
deriving DecidableEq, Repr

/-- The state after reset (R40 to R43, R200): every register REG_RESET, `pc` PC_RESET, both flags false, memory all
0x00 (nothing listed), no event emitted. -/
def State.reset : State where
  regs := Vector.replicate 16 Config.regReset
  pc := Config.pcReset
  halted := false
  faulted := false
  mem := []
  events := []
  draws := 0

end Sys2Proof.Machine
end

