-- ==== Sys2Proof/Machine/Ops.lean ====
section
/-! DEFINITION. The named operations over memory, registers, the program counter and the outputs, the fetch, and the
raising of the one fault. There is no trap entry and no trap return (60_exceptions.md R186, R187): raising the fault is
all there is, and reset is the only way out. -/
namespace Sys2Proof.Machine

/-! ### Memory (20_memory.md) -/

/-- The byte listed for an address, or the fill byte of R43 where none is listed. -/
def Memory.lookup : Memory → Nat → Byte
  | [], _ => Config.memFill
  | (b, v) :: m, a => if b = a then v else Memory.lookup m a

/-- `MemRead(a, 1)`, the tolerant byte read: `M[a]` for an address below 256, else 0x00; it changes nothing (R50). -/
def Memory.read (m : Memory) (a : Nat) : Byte :=
  if a < Config.memSize then Memory.lookup m a else 0x00#8

/-- A cell put in its place by address. -/
def Memory.insert (a : Nat) (v : Byte) : Memory → Memory
  | [] => [(a, v)]
  | (b, w) :: m => if a < b then (a, v) :: (b, w) :: m else (b, w) :: Memory.insert a v m

/-- The list without the cells of one address. -/
def Memory.erase (a : Nat) : Memory → Memory
  | [] => []
  | (b, w) :: m => if b = a then Memory.erase a m else (b, w) :: Memory.erase a m

/-- `MemWrite(a, 1, v)`, the tolerant byte write: it sets `M[a]` for an address below 256, else does nothing (R51).
Writing the fill byte removes the cell, so that equal memories are equal lists. -/
def Memory.write (m : Memory) (a : Nat) (v : Byte) : Memory :=
  if a < Config.memSize then
    if v = Config.memFill then Memory.erase a m else Memory.insert a v (Memory.erase a m)
  else m

/-- `MemRead(a, 2)`, the instruction fetch: the byte at the lower address is the high byte (R52). Each byte is a
tolerant read, so at 255 the low byte is 0x00 (R56). -/
def Memory.fetchWord (m : Memory) (a : Nat) : Word :=
  wordOfBytes (Memory.read m a) (Memory.read m (a + 1))

/-- The canonical form above a lower bound: addresses strictly rising, below 256, no listed fill byte. -/
def Memory.wfFrom : Nat → Memory → Bool
  | _, [] => true
  | lo, (a, v) :: m =>
    decide (lo ≤ a) && decide (a < Config.memSize) && decide (v ≠ Config.memFill) && Memory.wfFrom (a + 1) m

/-- The canonical form of memory. -/
def Memory.wf (m : Memory) : Bool := Memory.wfFrom 0 m

/-! ### Field updates of the state -/

/-- The state with another register file. -/
def State.withRegs (s : State) (regs : Vector Word 16) : State := { s with regs := regs }

/-- `pc <- v`. -/
def State.setPc (s : State) (v : Word) : State := { s with pc := v }

/-- The state with another memory. -/
def State.withMem (s : State) (m : Memory) : State := { s with mem := m }

/-- `halted <- true` (R173). -/
def State.setHalted (s : State) : State := { s with halted := true }

/-- `faulted <- true` (R181). -/
def State.setFaulted (s : State) : State := { s with faulted := true }

/-- `emit e`: one output event, with no effect on the spec's state (R174, R182). -/
def State.emit (s : State) (e : Event) : State := { s with events := s.events ++ [e] }

/-- The state in which one more free byte has been drawn (R160). -/
def State.advanceDraws (s : State) : State := { s with draws := s.draws + 1 }

/-! ### Registers (10_state.md) -/

/-- `x[i]` for a 4-bit index, always in range; no register is hardwired (R20 to R22). -/
def State.getReg (s : State) (i : RegIdx) : Word := s.regs[i.toNat]'i.isLt

/-- `x[i] <- v` for a 4-bit index (R22). -/
def State.setReg (s : State) (i : RegIdx) (v : Word) : State := s.withRegs (s.regs.set i.toNat v i.isLt)

/-- `get(index)` for any index: the stored value, or 0 out of range; it changes nothing and raises nothing (R22, R36). -/
def State.regRead (s : State) (i : Int) : Word :=
  if 0 ≤ i ∧ i < 16 then s.getReg (BitVec.ofInt 4 i) else 0x0000#16

/-- `set(index, value)` for any index: a write in range, else silently ignored (R22). -/
def State.regWrite (s : State) (i : Int) (v : Word) : State :=
  if 0 ≤ i ∧ i < 16 then s.setReg (BitVec.ofInt 4 i) v else s

/-! ### Memory through the state -/

/-- The byte `M[a]` by the tolerant read (R50). -/
def State.readByte (s : State) (a : Nat) : Byte := Memory.read s.mem a

/-- `MemWrite(a, 1, v)` on the state (R51). -/
def State.writeByte (s : State) (a : Nat) (v : Byte) : State := s.withMem (Memory.write s.mem a v)

/-- The read port `mem_read(a)` for any index: 0 out of range, no state changed (R36). -/
def State.memRead (s : State) (a : Int) : Byte := if 0 ≤ a then s.readByte a.toNat else 0x00#8

/-- The loader's write `load(a, b)` for any index: nothing out of range (R36, R204). -/
def State.load (s : State) (a : Int) (b : Byte) : State := if 0 ≤ a then s.writeByte a.toNat b else s

/-- The words of a program image written from address `a` on, each high byte first (R100). Words beyond the top of
memory are dropped, as a loader that stops when memory is full drops them. -/
def State.loadWordsAt (s : State) : Nat → List Word → State
  | _, [] => s
  | a, w :: ws =>
    ((s.writeByte a (w.extractLsb' 8 8)).writeByte (a + 1) (w.extractLsb' 0 8)).loadWordsAt (a + 2) ws

/-! ### The step's own operations (40_fetch_decode.md) -/

/-- The bounds test of R111: the address of the first byte only. -/
def State.pcInBounds (s : State) : Bool := decide (s.pc.toNat < Config.memSize)

/-- The instruction word at the program counter (R112). -/
def State.fetched (s : State) : Word := Memory.fetchWord s.mem s.pc.toNat

/-- The two bytes of the fetch in memory order (R52, R112). -/
def State.fetchedBytes (s : State) : List Byte := [s.readByte s.pc.toNat, s.readByte (s.pc.toNat + 1)]

/-- `pc <- pc + 2`, before anything is executed (R112, R9). -/
def State.advancePc (s : State) : State := s.setPc (s.pc + 2#16)

/-- `raise PcOutOfBounds(pc)`, the only fault (R181, R182): `faulted` is set and one FaultReport is emitted; nothing
else changes. -/
def State.raisePcOutOfBounds (s : State) : State :=
  s.setFaulted.emit (.faultReport .pcOutOfBounds s.pc)

/-- An instruction word stored at the program counter, high byte first, by the tolerant write (R52). -/
def State.placeWord (s : State) (w : Word) : State :=
  (s.writeByte s.pc.toNat (w.extractLsb' 8 8)).writeByte (s.pc.toNat + 1) (w.extractLsb' 0 8)

end Sys2Proof.Machine
end

