-- ==== Sys2Proof/Machine/Flags.lean ====
section
/-! DEFINITION. The flags. There are no condition codes (10_state.md R30): the only flags are `halted` and `faulted`, from
which the run state is computed (R29), and the one comparison of the machine, inside BGTJMP (44_control.md R172). -/
namespace Sys2Proof.Machine

/-- The run state between steps: Faulted if `faulted`, else Halted if `halted`, else Fetching (R29). -/
def State.runState (s : State) : RunState :=
  if s.faulted then .faulted else if s.halted then .halted else .fetching

/-- `signed16(v)`, the two's-complement reading of a Word (00_scope.md notation, R172). -/
def signed16 (v : Word) : Int :=
  if v.toNat ≤ 0x7FFF then (v.toNat : Int) else (v.toNat : Int) - 65536

/-- BGTJMP's condition: strictly greater, signed (R172). -/
def signedGreater (a b : Word) : Bool := decide (signed16 a > signed16 b)

/-- What every HALT does: `halted <- true; emit HaltNotice` (R173, R174). -/
def State.haltRun (s : State) : State := s.setHalted.emit .haltNotice

end Sys2Proof.Machine
end

