-- ==== Sys2Proof/Machine/Operands.lean ====
section
/-! DEFINITION. The operand forms, all of them (41_data_transfer.md R134): register, 8-bit immediate, 4-bit field used as
a value, and absolute memory; and the widening and narrowing between Byte and Word (D3 to D6). -/
namespace Sys2Proof.Machine

/-- `zext_16(b)`: a Byte is unsigned, so its value is kept (R130, R131, R158; D3, D6: log 3, log 4). -/
def zext16 (b : Byte) : Word := b.setWidth 16

/-- `v[7:0]`: the low byte of a Word, the rest dropped without error (R132, R158; D4, D5: log 3, log 4). -/
def lowByte (v : Word) : Byte := v.extractLsb' 0 8

/-- The literal XY as a Word, never sign-extended (R84, R131). -/
def literal (xy : Byte) : Word := zext16 xy

/-- The effective address of LOADM and STORE: XY itself, nothing added, always in range (R84, R134). -/
def effectiveAddress (xy : Byte) : Nat := xy.toNat

/-- The jump target XY of BGTJMP, absolute (R84, R172). -/
def immediateTarget (xy : Byte) : Word := zext16 xy

/-- FADD's second operand: the raw field t as the byte `0000 tttt` (R154, R158). -/
def packedLiteral (t : Nibble) : Byte := t.setWidth 8

/-- ROR's amount: the field s itself, 0 to 15 (R145). -/
def rotateAmount (s : Nibble) : Nat := s.toNat

end Sys2Proof.Machine
end

