-- ==== Sys2Proof/Machine/Control.lean ====
section
/-! DEFINITION. JUMP, BGTJMP and the four HALT opcodes (44_control.md R171 to R176). `pc` has already been advanced, so
"falls through" means it keeps that value. -/
namespace Sys2Proof.Machine

/-- JUMP: `pc <- x[r]`, all 16 bits; it raises nothing itself (R171, D2: log 2). -/
def execJump (r : RegIdx) (s : State) : Host.Outcome State Fault Refusal :=
  .next (s.setPc (s.getReg r))

/-- BGTJMP: `if signed16(x[r]) > signed16(x[0]) then pc <- zext_16(XY)` (R172). -/
def execBgtjmp (r : RegIdx) (xy : Byte) (s : State) : Host.Outcome State Fault Refusal :=
  .next (if signedGreater (s.getReg r) (s.getReg 0x0#4) then s.setPc (immediateTarget xy) else s)

/-- HALT, explicit, opcode 0xC (R173). -/
def execHalt (s : State) : Host.Outcome State Fault Refusal := .next s.haltRun

/-- HALT, implicit, opcode 0x0 (R90, R173). -/
def execHaltOp0 (s : State) : Host.Outcome State Fault Refusal := .next s.haltRun

/-- HALT, implicit, opcode 0xE (R90, R173). -/
def execHaltOpE (s : State) : Host.Outcome State Fault Refusal := .next s.haltRun

/-- HALT, implicit, opcode 0xF (R90, R173). -/
def execHaltOpF (s : State) : Host.Outcome State Fault Refusal := .next s.haltRun

end Sys2Proof.Machine
end

