-- ==== Sys2Proof/Machine/DataTransfer.lean ====
section
/-! DEFINITION. LOADM, LOADI, STORE, MOVE (41_data_transfer.md R130 to R133). In every meaning `pc` has already been
advanced (00_scope.md R9); none of these writes it. -/
namespace Sys2Proof.Machine

/-- LOADM: `x[r] <- zext_16(MemRead(XY, 1))` (R130). -/
def execLoadm (r : RegIdx) (xy : Byte) (s : State) : Host.Outcome State Fault Refusal :=
  .next (s.setReg r (zext16 (s.readByte (effectiveAddress xy))))

/-- LOADI: `x[r] <- zext_16(XY)` (R131). -/
def execLoadi (r : RegIdx) (xy : Byte) (s : State) : Host.Outcome State Fault Refusal :=
  .next (s.setReg r (literal xy))

/-- STORE: `M[XY] <- x[r][7:0]` (R132). -/
def execStore (r : RegIdx) (xy : Byte) (s : State) : Host.Outcome State Fault Refusal :=
  .next (s.writeByte (effectiveAddress xy) (lowByte (s.getReg r)))

/-- MOVE: `x[s] <- x[r]`, source r, destination s (R133). -/
def execMove (r d : RegIdx) (s : State) : Host.Outcome State Fault Refusal :=
  .next (s.setReg d (s.getReg r))

end Sys2Proof.Machine
end

