-- ==== Sys2Proof/Machine/IntegerAlu.lean ====
section
/-! DEFINITION. ADD, OR, AND, XOR, ROR (42_integer_alu.md R140 to R147). Sources are read before the destination is
written (10_state.md R24); no flag is written (R30). -/
namespace Sys2Proof.Machine

/-- A two-source operation into register `r`: `x[r] <- f(x[s], x[t])` (R140 to R143). -/
def State.aluWrite (f : Word → Word → Word) (r a b : RegIdx) (s : State) : State :=
  s.setReg r (f (s.getReg a) (s.getReg b))

/-- `rotr16(v, n)`, rotate right on exactly 16 bits, the amount taken mod 16 (R146). -/
def rotr16 (v : Word) (n : Nat) : Word :=
  let m := n % 16
  if m = 0 then v else (v >>> m) ||| (v <<< (16 - m))

/-- ADD: `x[r] <- (x[s] + x[t]) mod 65536` (R140, D18: log 3). -/
def execAdd (r a b : RegIdx) (s : State) : Host.Outcome State Fault Refusal :=
  .next (s.aluWrite (fun x y => x + y) r a b)

/-- OR: bit by bit over all 16 bits (R141). -/
def execOr (r a b : RegIdx) (s : State) : Host.Outcome State Fault Refusal :=
  .next (s.aluWrite (fun x y => x ||| y) r a b)

/-- AND: bit by bit over all 16 bits (R142). -/
def execAnd (r a b : RegIdx) (s : State) : Host.Outcome State Fault Refusal :=
  .next (s.aluWrite (fun x y => x &&& y) r a b)

/-- XOR: bit by bit over all 16 bits (R143). -/
def execXor (r a b : RegIdx) (s : State) : Host.Outcome State Fault Refusal :=
  .next (s.aluWrite (fun x y => x ^^^ y) r a b)

/-- ROR: `x[r] <- rotr16(x[r], s)`, the amount the field s itself (R145). -/
def execRor (r : RegIdx) (n : Nibble) (s : State) : Host.Outcome State Fault Refusal :=
  .next (s.setReg r (rotr16 (s.getReg r) (rotateAmount n)))

end Sys2Proof.Machine
end

