-- ==== Sys2Proof/Machine/PackedFloat.lean ====
section
/-! DEFINITION. The FloatCodec: the PackedFloat format, its decoder and its encoder (43_packed_float.md R150 to R164), as
the source states them on real numbers (here exact rationals, R151, R159) and in the Q7 integer form FADD uses. -/
namespace Sys2Proof.Machine

/-- `S = b[7]`: true for a negative value (R150). -/
def pfSign (b : Byte) : Bool := b.getLsbD 7

/-- `E = b[6:3]`, the biased exponent (R150). -/
def pfExponent (b : Byte) : Nat := (b.extractLsb' 3 4).toNat

/-- `M = b[2:0]`, the fraction numerator over 8 (R150). -/
def pfFraction (b : Byte) : Nat := (b.extractLsb' 0 3).toNat

/-- `PFdecode(b)`: sign times (1 + M/8) times 2^(E-4), every byte a value, none zero (R152, R153). -/
def pfDecode (b : Byte) : ℚ :=
  (if pfSign b then -1 else 1) * (1 + (pfFraction b : ℚ) / 8) * 2 ^ ((pfExponent b : ℤ) - 4)

/-- `PFdecode_q(b)`: the same value in units of 2^-7, the integer (8 + M) << E with its sign (R151, R152). -/
def pfDecodeQ (b : Byte) : Int :=
  let a : Nat := (8 + pfFraction b) * 2 ^ pfExponent b
  if pfSign b then -(a : Int) else (a : Int)

/-- The packing of R157. `trunc8`: the low 8 bits of `(sign << 7) | (eb << 3) | mb`, so that an exponent outside 0 to 15
spills into the sign bit; `mask4`: `eb` reduced mod 16 first, the sign bit untouched (D8: log 6). -/
def pfPack (wrap : PfWrap) (sign : Bool) (eb : Int) (mb : BitVec 3) : Byte :=
  match wrap with
  | .trunc8 => (if sign then 0x80#8 else 0x00#8) ||| BitVec.ofInt 8 (8 * eb) ||| mb.setWidth 8
  | .mask4 => (BitVec.ofBool sign) ++ BitVec.ofInt 4 eb ++ mb

/-- `PFencode(v)` on exact numbers (R155, R159): `e` with 2^e ≤ |v| < 2^(e+1), the significand truncated to three bits.
Zero has no encoding: `none` (R161, U11). -/
def pfEncode (wrap : PfWrap) (v : ℚ) : Option Byte :=
  if v = 0 then none
  else
    let e : ℤ := Int.log 2 |v|
    some (pfPack wrap (decide (v < 0)) (e + 4) (BitVec.ofInt 3 ⌊(|v| / 2 ^ e - 1) * 8⌋))

/-- `PFencode_q(q)` on a Q7 integer (R156): k the position of the leading 1 of |q|, eb = k - 3, mb the three bits below
it. `none` for zero (R161). -/
def pfEncodeQ (wrap : PfWrap) (q : Int) : Option Byte :=
  if q = 0 then none
  else
    let a := q.natAbs
    let k := Nat.log2 a
    some (pfPack wrap (decide (q < 0)) ((k : Int) - 3) (BitVec.ofNat 3 (a * 8 / 2 ^ k - 8)))

end Sys2Proof.Machine
end

