-- ==== Sys2Proof/Machine/Fadd.lean ====
section
/-! DEFINITION. FADD (43_packed_float.md R158, R160, R164), for every value of its two named switches (00_scope.md R7);
the machine runs it at the spec's defaults. -/
namespace Sys2Proof.Machine

/-- The exact sum of FADD in units of 2^-7: the low byte of the register and the raw nibble, both decoded (R158, D5, D9).
`x[t]` is not read. -/
def faddSum (v : Word) (t : Nibble) : Int := pfDecodeQ (lowByte v) + pfDecodeQ (packedLiteral t)

/-- FADD's own action (R158): the encoded sum, zero-extended into `x[r]`; where the sum is zero the byte is the free
value FADD_ZERO_RESULT, drawn afresh (R160, P1: log 7), and the instruction completes all the same. -/
def State.faddWrite (wrap : PfWrap) (r a : RegIdx) (t : Nibble) (s : State) : State :=
  match pfEncodeQ wrap (faddSum (s.getReg a) t) with
  | some b => s.setReg r (zext16 b)
  | none => (s.setReg r (zext16 (Config.faddZeroResult s.draws))).advanceDraws

/-- FADD under both switches: with FADD_FALLTHROUGH true the OR of opcode 0x7 with the same fields follows the write
(R114, D7: log 5); with false, the default, nothing else happens in the step. -/
def State.faddWith (wrap : PfWrap) (fallthrough : Bool) (r a : RegIdx) (t : Nibble) (s : State) : State :=
  if fallthrough then (s.faddWrite wrap r a t).aluWrite (fun x y => x ||| y) r a t
  else s.faddWrite wrap r a t

/-- FADD (R158) at the spec's defaults PF_WRAP = trunc8 and FADD_FALLTHROUGH = false. -/
def execFadd (r a : RegIdx) (t : Nibble) (s : State) : Host.Outcome State Fault Refusal :=
  .next (s.faddWith Config.pfWrap Config.faddFallthrough r a t)

end Sys2Proof.Machine
end

