-- ==== Sys2Proof/Machine/Dispatch.lean ====
section
/-! DEFINITION. Dispatch: the opcode selects exactly one handler, which runs once (40_fetch_decode.md R114). -/
namespace Sys2Proof.Machine

/-- The effect of one decoded instruction on a state whose `pc` has already been advanced (R9, R114). -/
def exec (i : Instr) (s : State) : Host.Outcome State Fault Refusal :=
  match i with
  | .loadm r xy => Sys2Proof.Machine.execLoadm r xy s
  | .loadi r xy => Sys2Proof.Machine.execLoadi r xy s
  | .store r xy => Sys2Proof.Machine.execStore r xy s
  | .move r d => Sys2Proof.Machine.execMove r d s
  | .add r a b => Sys2Proof.Machine.execAdd r a b s
  | .fadd r a t => Sys2Proof.Machine.execFadd r a t s
  | .or r a b => Sys2Proof.Machine.execOr r a b s
  | .and r a b => Sys2Proof.Machine.execAnd r a b s
  | .xor r a b => Sys2Proof.Machine.execXor r a b s
  | .ror r n => Sys2Proof.Machine.execRor r n s
  | .jump r => Sys2Proof.Machine.execJump r s
  | .halt => Sys2Proof.Machine.execHalt s
  | .bgtjmp r xy => Sys2Proof.Machine.execBgtjmp r xy s
  | .haltOp0 => Sys2Proof.Machine.execHaltOp0 s
  | .haltOpE => Sys2Proof.Machine.execHaltOpE s
  | .haltOpF => Sys2Proof.Machine.execHaltOpF s

end Sys2Proof.Machine
end

