-- ==== Sys2Proof/Machine/Step.lean ====
section
/-! DEFINITION. The step: bounds test, fetch, advance, decode, dispatch, as one atomic function (40_fetch_decode.md R110
to R117). -/
namespace Sys2Proof.Machine

/-- One step (R116). In Halted and Faulted there is none (R110). In Fetching, a `pc` at or beyond 256 raises the fault
(R111); otherwise the word at `pc` is fetched, `pc` advanced by 2, and the decoded instruction executed (R112 to R114). -/
def step (s : State) : Host.Outcome State Fault Refusal :=
  match s.runState with
  | .halted => .fault .runEndedHalted
  | .faulted => .fault .runEndedFaulted
  | .fetching =>
    if s.pcInBounds then exec (decodeWord s.fetched) s.advancePc
    else .next s.raisePcOutOfBounds

/-- The state with a table word stored at the program counter, high byte first, and nothing else changed. In Fetching
with `pc` at most 254, the very next step runs that instruction. -/
def State.withFetchWord (s : State) (nbits w : Nat) : State := s.placeWord (tableWord nbits w)

end Sys2Proof.Machine
end

