-- ==== Sys2Proof/Machine/Protocol.lean ====
section
/-! DEFINITION. The host protocol around the core (70_reset_and_hazards.md R200 to R207, 10_state.md R35, R36): the phases
reset, load, run and ended, and the host's moves in each. The phase stands beside the core's state, not in it, because
the `run` event "changes no state by itself" (R205). -/
namespace Sys2Proof.Machine

/-- The phases of the core's life after a reset (R203). -/
inductive Phase where
  | load
  | run
  | ended
deriving DecidableEq, Repr

/-- A core and whether its host has given the `run` event since the last reset (R203, R205). -/
structure Session where
  core : State
  started : Bool
deriving DecidableEq, Repr

/-- After a reset: the load phase, the core at its reset values (R200). -/
def Session.fresh : Session := { core := State.reset, started := false }

/-- The phase (R203): load until `run`, then run while the run state is Fetching, then ended. -/
def Session.phase (p : Session) : Phase :=
  if p.started then
    match p.core.runState with
    | .fetching => .run
    | _ => .ended
  else .load

/-- `reset`, in any phase: every piece of state at its reset value, memory too, and the load phase again (R200, R201,
D19: log 11). The count of drawn free bytes, which is the model's own, goes on, so that no draw is used twice (log 7). -/
def Session.hostReset (p : Session) : Session :=
  { core := { State.reset with draws := p.core.draws }, started := false }

/-- `load(a, b)`: the tolerant byte write in the load phase; outside it the host has no such move (R204, R206, D17). -/
def Session.hostLoad (p : Session) (a : Int) (b : Byte) : Host.Outcome Session Fault Refusal :=
  match p.phase with
  | .load => .next { p with core := p.core.load a b }
  | _ => .refused .loadOutsideLoadPhase

/-- The loader's program image from address 0 in the load phase (R100, R204). -/
def Session.hostLoadImage (p : Session) (ws : List Word) : Host.Outcome Session Fault Refusal :=
  match p.phase with
  | .load => .next { p with core := p.core.loadWordsAt 0 ws }
  | _ => .refused .loadOutsideLoadPhase

/-- `run`: ends the load phase; in any other phase it has no effect (R205). -/
def Session.hostRun (p : Session) : Session :=
  match p.phase with
  | .load => { p with started := true }
  | _ => p

/-- One pass of the run loop (R110): a step of the core, once the run has started. -/
def Session.tick (p : Session) : Host.Outcome Session Fault Refusal :=
  if p.started then
    match step p.core with
    | .next s => .next { p with core := s }
    | .fault f => .fault f
    | .refused f => .refused f
  else .refused .runNotStarted

/-- A host read: outside the run phase it gives the value of the port and changes nothing (R35, R207); during the run
the spec promises none and the host has no such move (R206, U9: log 10). -/
def Session.hostRead {α : Type} (p : Session) (port : State → α) : Host.Outcome α Fault Refusal :=
  match p.phase with
  | .run => .refused .readDuringRun
  | _ => .next (port p.core)

/-- The port `reg_read(i)` (R36). -/
def Session.regRead (p : Session) (i : Int) : Host.Outcome Word Fault Refusal := p.hostRead fun s => s.regRead i

/-- The port `mem_read(a)` (R36). -/
def Session.memRead (p : Session) (a : Int) : Host.Outcome Byte Fault Refusal := p.hostRead fun s => s.memRead a

/-- The port `pc` (R35). -/
def Session.pcRead (p : Session) : Host.Outcome Word Fault Refusal := p.hostRead fun s => s.pc

/-- The port `run_state` (R35, R29). -/
def Session.runStateRead (p : Session) : Host.Outcome RunState Fault Refusal := p.hostRead fun s => s.runState

end Sys2Proof.Machine
end

