-- ==== Sys2Proof/Safety.lean ====
section
/-! DEFINITION. The terms the claims use: what a frame is, the invariant of the core, the invariant of a session, and the
one unsafe ending. -/
namespace Sys2Proof.Machine

/-- Every memory byte reads the same in both states (20_memory.md R50). -/
def SameMemory (s t : State) : Prop := ∀ a : Nat, t.readByte a = s.readByte a

/-- The control state (10_state.md R31) and the emitted events are the same in both states. -/
def SameControl (s t : State) : Prop :=
  t.pc = s.pc ∧ t.halted = s.halted ∧ t.faulted = s.faulted ∧ t.events = s.events

/-- Every register but `d` is the same in both states. -/
def SameRegsBut (d : RegIdx) (s t : State) : Prop := ∀ i : RegIdx, i ≠ d → t.getReg i = s.getReg i

/-- Every register is the same in both states. -/
def SameRegs (s t : State) : Prop := ∀ i : RegIdx, t.getReg i = s.getReg i

/-- The frame of an instruction that writes register `d` and draws no free byte: nothing else changes. -/
def OnlyRegChanges (d : RegIdx) (s t : State) : Prop :=
  SameRegsBut d s t ∧ SameControl s t ∧ SameMemory s t ∧ t.draws = s.draws

/-- The frame of an instruction that writes the program counter only. -/
def OnlyPcChanges (s t : State) : Prop :=
  SameRegs s t ∧ SameMemory s t ∧ t.halted = s.halted ∧ t.faulted = s.faulted ∧ t.events = s.events ∧
    t.draws = s.draws

/-- The events a state must have emitted, read from its flags: one notice or one report at the end of a run, none before
(40_fetch_decode.md R118, 70_reset_and_hazards.md R207). -/
def State.owedEvents (s : State) : List Event :=
  match s.runState with
  | .fetching => []
  | .halted => [.haltNotice]
  | .faulted => [.faultReport .pcOutOfBounds s.pc]

/-- The invariant of the core: memory in canonical form; `halted` and `faulted` never both true (10_state.md R29); the
events are those owed; a faulted core holds an out-of-bounds program counter (R118). -/
abbrev State.Inv (s : State) : Prop :=
  Memory.wf s.mem = true ∧ ¬ (s.halted = true ∧ s.faulted = true) ∧ s.events = s.owedEvents ∧
    (s.faulted = true → 256 ≤ s.pc.toNat)

/-- The invariant of a session: the core's own, and in the load phase nothing but memory differs from the reset state
(R200, R204; the model's count of drawn bytes apart). -/
abbrev Session.Inv (p : Session) : Prop :=
  p.core.Inv ∧
    (p.started = false → p.core = { State.reset with mem := p.core.mem, draws := p.core.draws })

/-- One of the four HALT instructions, explicit or implicit (44_control.md R173). -/
def IsHalt (i : Instr) : Prop := i = .halt ∨ i = .haltOp0 ∨ i = .haltOpE ∨ i = .haltOpF

/-- The register an instruction writes, if it writes one (10_state.md R24): field r of LOADM, LOADI, ADD, FADD, OR, AND, XOR
and ROR, field s of MOVE. -/
def destReg : Instr → Option RegIdx
  | .loadm r _ | .loadi r _ | .add r _ _ | .fadd r _ _ | .or r _ _ | .and r _ _ | .xor r _ _ | .ror r _ => some r
  | .move _ d => some d
  | .store _ _ | .jump _ | .bgtjmp _ _ | .halt | .haltOp0 | .haltOpE | .haltOpF => none

/-- The run state is Fetching, so the core can take a step (10_state.md R29, 40_fetch_decode.md R110). -/
abbrev State.Fetching (s : State) : Prop := s.halted = false ∧ s.faulted = false

/-- A run is safe in a state that has not ended by the one fault of the machine (60_exceptions.md R181). -/
abbrev State.Safe (s : State) : Prop := s.faulted = false

end Sys2Proof.Machine
end

