-- ==== Sys2Proof/Certificates/Slice0/Obligations.lean ====
section
/-! DEFINITION. The statements for the provers. Where a clause rests on a choice the spec marks as its own decision (D<n> of
92_eei_decisions.md) the docstring says so and names the log entry. -/

open Sys2Proof Sys2Proof.Machine

/-! ### Encoding -/

/-- Words written out from the field positions and the opcode map (R81, R85, R90) decode to the instructions they stand
for. -/
def Obligations.WrittenWordsDecode : Prop :=
  decodeWord 0x1FA5#16 = .loadm 0xF#4 0xA5#8 ∧ decodeWord 0x2001#16 = .loadi 0x0#4 0x01#8 ∧
  decodeWord 0x3280#16 = .store 0x2#4 0x80#8 ∧ decodeWord 0x412F#16 = .move 0x1#4 0x2#4 ∧
  decodeWord 0x5987#16 = .add 0x9#4 0x8#4 0x7#4 ∧ decodeWord 0x621C#16 = .fadd 0x2#4 0x1#4 0xC#4 ∧
  decodeWord 0xA13F#16 = .ror 0x1#4 0x3#4 ∧ decodeWord 0xB4FF#16 = .jump 0x4#4 ∧
  decodeWord 0xC123#16 = .halt ∧ decodeWord 0xD140#16 = .bgtjmp 0x1#4 0x40#8 ∧
  decodeWord 0x0000#16 = .haltOp0 ∧ decodeWord 0xFFFF#16 = .haltOpF

/-- Decoding the canonical encoding of any instruction gives it back, every operand at every value (R81, R84, R98). -/
def Obligations.DecodeEncodeRoundTrip : Prop :=
  ∀ i : Instr, i.wf = true ∧ decodeWord (encode i) = i ∧ decodeBytes (bytesOfWord (encode i)) = .ok (i, [])

/-- Every one of the 65536 words decodes, and encoding the result gives the word with its ignored fields set to 0: no
used bit is dropped (R82, R87, R98). -/
def Obligations.EncodeDecodeIsCanonicalWord : Prop :=
  ∀ w : Word, encode (decodeWord w) = canonicalWord w ∧ (isCanonicalWord w = true ↔ encode (decodeWord w) = w)

/-- Two words decode to the same constructor and operands exactly if they differ in ignored fields only. That words which
differ there only are one instruction is R87; that words with different opcodes decode apart, the four HALT opcodes of
R86 and R114 among them, is the model's choice of one constructor per row of the opcode table, log 17. -/
def Obligations.IgnoredFieldsAloneDoNotMatter : Prop :=
  ∀ v w : Word, decodeWord v = decodeWord w ↔ canonicalWord v = canonicalWord w

/-- The top four bits alone select the instruction (R86): words with one top nibble decode to one opcode, that nibble. -/
def Obligations.TopNibbleSelectsInstruction : Prop :=
  ∀ op r s t : Nibble, (decodeWord (op ++ r ++ s ++ t)).opcode = op

/-! ### Instructions: encoding, completion, result and frame -/

/-- LOADM (R130): `x[r]` becomes the byte `M[XY]`, its value kept. The zero extension is the spec's decision D3, log 3. -/
def Obligations.LoadmLoadsByteZeroExtended : Prop :=
  ∀ (r : RegIdx) (xy : Byte) (s : State),
    decodeWord (0x1#4 ++ r ++ xy) = .loadm r xy ∧
    ∃ t, exec (.loadm r xy) s = .next t ∧ (t.getReg r).toNat = (s.readByte xy.toNat).toNat ∧ OnlyRegChanges r s t

/-- LOADI (R131): `x[r]` becomes the literal XY, 0 to 255, never sign-extended. -/
def Obligations.LoadiLoadsLiteral : Prop :=
  ∀ (r : RegIdx) (xy : Byte) (s : State),
    decodeWord (0x2#4 ++ r ++ xy) = .loadi r xy ∧
    ∃ t, exec (.loadi r xy) s = .next t ∧ (t.getReg r).toNat = xy.toNat ∧ OnlyRegChanges r s t

/-- STORE (R132): `M[XY]` becomes `x[r]` mod 256, and nothing else changes: no other byte, no register. The narrowing is
the spec's decision D4, log 3. -/
def Obligations.StoreWritesLowByteOnly : Prop :=
  ∀ (r : RegIdx) (xy : Byte) (s : State),
    decodeWord (0x3#4 ++ r ++ xy) = .store r xy ∧
    ∃ t, exec (.store r xy) s = .next t ∧ (t.readByte xy.toNat).toNat = (s.getReg r).toNat % 256 ∧
      (∀ a : Nat, a ≠ xy.toNat → t.readByte a = s.readByte a) ∧
      SameRegs s t ∧ SameControl s t ∧ t.draws = s.draws

/-- MOVE (R133): field r is the source and field s the destination, t ignored. -/
def Obligations.MoveCopiesFieldRIntoFieldS : Prop :=
  ∀ (r d : RegIdx) (u : Nibble) (s : State),
    decodeWord (0x4#4 ++ r ++ d ++ u) = .move r d ∧
    ∃ t, exec (.move r d) s = .next t ∧ t.getReg d = s.getReg r ∧ OnlyRegChanges d s t

/-- ADD (R140): the sum modulo 65536, the carry lost. Wrapping is the spec's decision D18, log 3. -/
def Obligations.AddWrapsModulo65536 : Prop :=
  ∀ (r a b : RegIdx) (s : State),
    decodeWord (0x5#4 ++ r ++ a ++ b) = .add r a b ∧
    ∃ t, exec (.add r a b) s = .next t ∧
      (t.getReg r).toNat = ((s.getReg a).toNat + (s.getReg b).toNat) % 65536 ∧ OnlyRegChanges r s t

/-- OR, AND and XOR (R141, R142, R143), bit by bit over all 16 bits, each with its own opcode. -/
def Obligations.BitwiseInstructionsCombineEveryBit : Prop :=
  ∀ (r a b : RegIdx) (s : State),
    (decodeWord (0x7#4 ++ r ++ a ++ b) = .or r a b ∧
      ∃ t, exec (.or r a b) s = .next t ∧ OnlyRegChanges r s t ∧
        ∀ i : Nat, (t.getReg r).getLsbD i = ((s.getReg a).getLsbD i || (s.getReg b).getLsbD i)) ∧
    (decodeWord (0x8#4 ++ r ++ a ++ b) = .and r a b ∧
      ∃ t, exec (.and r a b) s = .next t ∧ OnlyRegChanges r s t ∧
        ∀ i : Nat, (t.getReg r).getLsbD i = ((s.getReg a).getLsbD i && (s.getReg b).getLsbD i)) ∧
    (decodeWord (0x9#4 ++ r ++ a ++ b) = .xor r a b ∧
      ∃ t, exec (.xor r a b) s = .next t ∧ OnlyRegChanges r s t ∧
        ∀ i : Nat, (t.getReg r).getLsbD i = ((s.getReg a).getLsbD i ^^ (s.getReg b).getLsbD i))

/-- ROR (R145, R146): bit i of the result is bit (i + s) mod 16 of the old value, the amount the field s itself, t
ignored. The bit formula is R146's, marked there as general knowledge. -/
def Obligations.RorRotatesRightBySField : Prop :=
  ∀ (r : RegIdx) (n u : Nibble) (s : State),
    decodeWord (0xA#4 ++ r ++ n ++ u) = .ror r n ∧
    ∃ t, exec (.ror r n) s = .next t ∧
      (∀ i : Nat, i < 16 → (t.getReg r).getLsbD i = (s.getReg r).getLsbD ((i + n.toNat) % 16)) ∧ OnlyRegChanges r s t

/-- The source's three properties of rotateRight16, and the reduction mod 16 (R146, R145). -/
def Obligations.RotateRightProperties : Prop :=
  (∀ v : Word, rotr16 v 0 = v) ∧ (∀ v : Word, rotr16 v 16 = v) ∧ rotr16 0x0001#16 1 = 0x8000#16 ∧
  (∀ (v : Word) (n : Nat), rotr16 v n = rotr16 v (n % 16)) ∧
  (∀ (v : Word) (n m : Nat), rotr16 (rotr16 v n) m = rotr16 v (n + m))

/-- JUMP (R171): all 16 bits of `x[r]` become the program counter, whatever the value; it raises nothing itself. The
width is the spec's decision D2, log 2. -/
def Obligations.JumpTakesWholeRegister : Prop :=
  ∀ (r : RegIdx) (u v : Nibble) (s : State),
    decodeWord (0xB#4 ++ r ++ u ++ v) = .jump r ∧
    ∃ t, exec (.jump r) s = .next t ∧ t.pc = s.getReg r ∧ OnlyPcChanges s t

/-- BGTJMP (R172): to XY if `x[r]` is strictly greater than `x[0]` as two's-complement numbers, else `pc` keeps the
advanced value. -/
def Obligations.BgtjmpBranchesOnSignedGreater : Prop :=
  ∀ (r : RegIdx) (xy : Byte) (s : State),
    decodeWord (0xD#4 ++ r ++ xy) = .bgtjmp r xy ∧
    ∃ t, exec (.bgtjmp r xy) s = .next t ∧
      ((s.getReg r).toInt > (s.getReg 0x0#4).toInt → t.pc.toNat = xy.toNat) ∧
      (¬ (s.getReg r).toInt > (s.getReg 0x0#4).toInt → t.pc = s.pc) ∧ OnlyPcChanges s t

/-- HALT (R173): opcodes 0xC, 0x0, 0xE and 0xF, with any r, s, t, set `halted`, emit one HaltNotice, and change nothing
else; `pc` keeps the advanced value, and a core that is not faulted is then Halted, where no step is taken. That
`step` answers the missing step with a fault is the model's choice, log 9; that HALT sets `halted` on a state already
halted, where the source says "toggles" (C2), is log 11. -/
def Obligations.EveryHaltOpcodeHalts : Prop :=
  ∀ (r u v : Nibble),
    decodeWord (0xC#4 ++ r ++ u ++ v) = .halt ∧ decodeWord (0x0#4 ++ r ++ u ++ v) = .haltOp0 ∧
    decodeWord (0xE#4 ++ r ++ u ++ v) = .haltOpE ∧ decodeWord (0xF#4 ++ r ++ u ++ v) = .haltOpF ∧
    ∀ (i : Instr) (s : State), i = .halt ∨ i = .haltOp0 ∨ i = .haltOpE ∨ i = .haltOpF →
      ∃ t, exec i s = .next t ∧ t.halted = true ∧ t.events = s.events ++ [.haltNotice] ∧
        t.pc = s.pc ∧ t.faulted = s.faulted ∧ SameRegs s t ∧ SameMemory s t ∧ t.draws = s.draws ∧
        (s.faulted = false → t.runState = .halted ∧ step t = .fault .runEndedHalted)

/-! ### FADD and the FloatCodec -/

/-- FADD with a non-zero sum (R158): the exact sum of the two decoded numbers, encoded by the algorithm of R155 on exact
numbers, zero-extended into `x[r]`. The low byte (D5), the zero extension (D6), the packing (D8), exactness (D9) and the
absence of a fall-through (D7) are the spec's decisions: log 4, log 5, log 6, log 13. -/
def Obligations.FaddEncodesExactSum : Prop :=
  ∀ (r a : RegIdx) (n : Nibble) (s : State),
    decodeWord (0x6#4 ++ r ++ a ++ n) = .fadd r a n ∧
    (pfDecode ((s.getReg a).extractLsb' 0 8) + pfDecode (n.setWidth 8) ≠ 0 →
      ∃ b t, pfEncode .trunc8 (pfDecode ((s.getReg a).extractLsb' 0 8) + pfDecode (n.setWidth 8)) = some b ∧
        exec (.fadd r a n) s = .next t ∧ (t.getReg r).toNat = b.toNat ∧ OnlyRegChanges r s t)

/-- FADD with a zero sum (R160): it happens exactly where the low byte of `x[s]` is 0x80 | t; FADD completes, bits 15 to
8 of `x[r]` are 0, the low byte is not constrained, and nothing else of the machine changes (the model counts one drawn
free byte, log 7). The low byte and the zeros are the spec's decisions D5 and D6, log 4,
and D7, no fall-through into OR, log 5. -/
def Obligations.FaddZeroSumCompletesWithFreeByte : Prop :=
  (∀ (b : Byte) (n : Nibble), pfDecode b + pfDecode (n.setWidth 8) = 0 ↔ b = 0x80#8 ||| n.setWidth 8) ∧
  ∀ (r a : RegIdx) (n : Nibble) (s : State), (s.getReg a).extractLsb' 0 8 = 0x80#8 ||| n.setWidth 8 →
    ∃ t, exec (.fadd r a n) s = .next t ∧ (t.getReg r).extractLsb' 8 8 = 0x00#8 ∧
      SameRegsBut r s t ∧ SameControl s t ∧ SameMemory s t ∧ t.draws = s.draws + 1

/-- FADD with a sum of 1 to 7 units of 2^-7, of either sign (R164): the wrapped bytes of the table. They rest on the
spec's decisions D8, log 6, D5 and D6, log 4, and D7, no fall-through into OR, log 5. -/
def Obligations.FaddTooSmallSumGivesWrappedByte : Prop :=
  ∀ (r a : RegIdx) (n : Nibble) (s : State) (b : Byte),
    ((pfDecodeQ ((s.getReg a).extractLsb' 0 8) + pfDecodeQ (n.setWidth 8)).natAbs, b) ∈
      [(1, 0xE8#8), (2, 0xF0#8), (3, 0xF4#8), (4, 0xF8#8), (5, 0xFA#8), (6, 0xFC#8), (7, 0xFE#8)] →
    ∃ t, exec (.fadd r a n) s = .next t ∧ (t.getReg r).toNat = b.toNat ∧ OnlyRegChanges r s t

/-- FADD reads the low byte of `x[s]` and the nibble only, never `x[t]` (R158): states that agree there, and in the
model's draw counter, get the same `x[r]`. The low byte is the spec's decision D5, log 4; that `x[t]` takes no part rests
on its decision D7, no fall-through into OR, log 5. -/
def Obligations.FaddDependsOnLowByteOnly : Prop :=
  ∀ (r a : RegIdx) (n : Nibble) (s u s' u' : State),
    (s.getReg a).extractLsb' 0 8 = (u.getReg a).extractLsb' 0 8 → s.draws = u.draws →
    exec (.fadd r a n) s = .next s' → exec (.fadd r a n) u = .next u' → s'.getReg r = u'.getReg r

/-- The decoder (R152), from the fields S, E and M of the byte: its real value, and the Q7 value, the same in units of
2^-7. -/
def Obligations.PfDecodeReadsSignExponentFraction : Prop :=
  ∀ b : Byte,
    pfDecode b = (-1) ^ (b.toNat / 128) * (1 + (b.toNat % 8 : ℕ) / 8) * 2 ^ (((b.toNat / 8 % 16 : ℕ) : ℤ) - 4) ∧
    pfDecodeQ b = (-1) ^ (b.toNat / 128) * ((8 + b.toNat % 8) <<< (b.toNat / 8 % 16) : ℕ) ∧
    (pfDecodeQ b : ℚ) = pfDecode b * 128

/-- The value set (R153): no byte is zero, the magnitudes run from 1/16 to 3840, and bit 7 negates. -/
def Obligations.PfValueSetHasNoZero : Prop :=
  ∀ b : Byte, pfDecode b ≠ 0 ∧ 1 / 16 ≤ |pfDecode b| ∧ |pfDecode b| ≤ 3840 ∧ pfDecode (b ^^^ 0x80#8) = -pfDecode b

/-- Encoding the value of a byte gives the byte (R162 a). -/
def Obligations.PfEncodeDecodeRoundTrip : Prop :=
  ∀ b : Byte, pfEncodeQ .trunc8 (pfDecodeQ b) = some b ∧ pfEncode .trunc8 (pfDecode b) = some b

/-- The integer encoder of R156 is the encoder of R155 on the number it stands for, under both packings, and neither has
a result for zero (R161). -/
def Obligations.PfEncodeQRefinesPfEncode : Prop :=
  ∀ (wrap : PfWrap) (q : Int), pfEncodeQ wrap q = pfEncode wrap ((q : ℚ) / 128) ∧
    (pfEncodeQ wrap q = none ↔ q = 0)

/-- The fields of an encoded number whose exponent fits (R155, R157): sign, e + 4, and the truncated fraction, for the e
with 2^e ≤ |v| < 2^(e+1). -/
def Obligations.PfEncodeFieldsInRange : Prop :=
  ∀ (wrap : PfWrap) (v : ℚ) (e : ℤ), (2 : ℚ) ^ e ≤ |v| → |v| < 2 ^ (e + 1) → -4 ≤ e → e ≤ 11 →
    ∃ b, pfEncode wrap v = some b ∧ (pfSign b = true ↔ v < 0) ∧ (pfExponent b : ℤ) = e + 4 ∧
      (pfFraction b : ℤ) = ⌊(|v| / 2 ^ e - 1) * 8⌋

/-- The quantization error (R162 b, with the bound corrected by C3): the decoded number has the sign of v, is at most v
in magnitude, and is off by less than one unit of the fraction, hence by less than an eighth of v. -/
def Obligations.PfEncodeErrorBelowOneEighth : Prop :=
  ∀ (v : ℚ) (e : ℤ), 1 / 16 ≤ |v| → |v| < 4096 → (2 : ℚ) ^ e ≤ |v| → |v| < 2 ^ (e + 1) →
    ∃ b, pfEncode .trunc8 v = some b ∧ (pfDecode b < 0 ↔ v < 0) ∧ |pfDecode b| ≤ |v| ∧
      |v| < |pfDecode b| + 2 ^ (e - 3) ∧ |v| - |pfDecode b| < |v| / 8

/-- The two packings (R157): they agree in bits 6 to 0 always, and differ in bit 7 exactly when the sign is positive and
bit 4 of the biased exponent, in two's complement, is 1. The choice is the spec's decision D8, log 6. -/
def Obligations.PfPackingsDifferOnlyInSignBit : Prop :=
  ∀ (sign : Bool) (eb : Int) (mb : BitVec 3),
    (pfPack .trunc8 sign eb mb).extractLsb' 0 7 = (pfPack .mask4 sign eb mb).extractLsb' 0 7 ∧
    ((pfPack .trunc8 sign eb mb).getLsbD 7 ≠ (pfPack .mask4 sign eb mb).getLsbD 7 ↔
      sign = false ∧ (BitVec.ofInt 5 eb).getLsbD 4 = true)

/-! ### Accessors, fetch and memory -/

/-- The host's ports (R36): in range the stored value, out of range 0, and a load out of range does nothing. -/
def Obligations.HostPortsAreTolerant : Prop :=
  ∀ s : State,
    (∀ i : RegIdx, s.regRead (i.toNat : Int) = s.getReg i) ∧
    (∀ i : Int, i < 0 ∨ 15 < i → s.regRead i = 0x0000#16) ∧
    (∀ a : Nat, a ≤ 255 → s.memRead (a : Int) = s.readByte a) ∧
    (∀ a : Int, a < 0 ∨ 255 < a → s.memRead a = 0x00#8) ∧
    (∀ (a : Int) (b : Byte), a < 0 ∨ 255 < a → s.load a b = s)

/-- Set then get (R22, R23): a write in range is read back and changes no other register, no memory, no control state; a
write out of range is ignored. -/
def Obligations.RegisterSetThenGet : Prop :=
  ∀ (s : State) (i : Int) (v : Word),
    (0 ≤ i → i ≤ 15 → (s.regWrite i v).regRead i = v) ∧
    (∀ j : Int, j ≠ i → (s.regWrite i v).regRead j = s.regRead j) ∧
    (i < 0 ∨ 15 < i → s.regWrite i v = s) ∧
    SameControl s (s.regWrite i v) ∧ SameMemory s (s.regWrite i v)

/-- A loader's write is read back at its address alone (R50, R51, R59), for any address, in range or not. -/
def Obligations.LoadedByteReadsBack : Prop :=
  ∀ (s : State) (a : Int) (b : Byte),
    (0 ≤ a → a ≤ 255 → (s.load a b).memRead a = b) ∧
    (∀ c : Int, c ≠ a → (s.load a b).memRead c = s.memRead c) ∧
    SameRegs s (s.load a b) ∧ SameControl s (s.load a b)

/-- Memories that hold the same bytes are the same data, while in canonical form: the model adds no state to the 256
bytes of R32. -/
def Obligations.CanonicalMemoryIsItsBytes : Prop :=
  ∀ s t : State, Memory.wf s.mem = true → Memory.wf t.mem = true →
    ((∀ a : Nat, a ≤ 255 → s.readByte a = t.readByte a) ↔ s.mem = t.mem)

/-- The fetch (R52, R56): the byte at the lower address is the high byte; at 255 the low byte is 0. -/
def Obligations.FetchIsBigEndian : Prop :=
  ∀ s : State,
    (s.pc.toNat ≤ 254 →
      s.fetched.toNat = 256 * (s.readByte s.pc.toNat).toNat + (s.readByte (s.pc.toNat + 1)).toNat) ∧
    (s.pc.toNat = 255 → s.fetched.toNat = 256 * (s.readByte 255).toNat)

/-- A STORE is seen by every later fetch at once (R53, R64): the word at any address a after STORE to XY has the stored
byte as its high byte if a = XY, as its low byte if a + 1 = XY, and its old bytes elsewhere. The narrowing is the spec's
decision D4, log 3. -/
def Obligations.StoreIsSeenByNextFetch : Prop :=
  ∀ (r : RegIdx) (xy : Byte) (s : State),
    ∃ t, exec (.store r xy) s = .next t ∧ ∀ a : Nat, a ≤ 255 →
      (Memory.fetchWord t.mem a).extractLsb' 8 8 =
        (if a = xy.toNat then (s.getReg r).extractLsb' 0 8 else s.readByte a) ∧
      (Memory.fetchWord t.mem a).extractLsb' 0 8 =
        (if a + 1 = xy.toNat then (s.getReg r).extractLsb' 0 8 else s.readByte (a + 1))

/-! ### The step -/

/-- A step runs the decoded instruction (R112 to R114): in Fetching below 256, if the two bytes at `pc` decode to i, the
step is `exec i` on the state whose `pc` alone has advanced by 2. -/
def Obligations.StepRunsDecodedInstruction : Prop :=
  ∀ (s : State) (i : Instr), s.Fetching → s.pc.toNat ≤ 255 →
    decodeBytes [s.readByte s.pc.toNat, s.readByte (s.pc.toNat + 1)] = .ok (i, []) →
    step s = exec i { s with pc := s.pc + 2#16 } ∧ (s.pc + 2#16).toNat = s.pc.toNat + 2

/-- The one fault (R111, R181): in Fetching at or beyond 256 a step sets `faulted`, emits one report with the name and
`pc`, and changes nothing else. The report's content is the spec's decision D13, log 8. -/
def Obligations.OutOfBoundsStepFaults : Prop :=
  ∀ s : State, s.Fetching → 256 ≤ s.pc.toNat →
    step s = .next { s with faulted := true, events := s.events ++ [.faultReport .pcOutOfBounds s.pc] }

/-- The terminal states (R110, R118): no step is ever taken in Halted or Faulted. That `step` answers the missing step
with a fault is the model's choice, log 9. -/
def Obligations.TerminalStatesHaveNoStep : Prop :=
  ∀ s : State,
    (s.faulted = true → step s = .fault .runEndedFaulted) ∧
    (s.faulted = false → s.halted = true → step s = .fault .runEndedHalted)

/-- A next step exists exactly in Fetching (R110, U10): no instruction, word, register value or memory content stops the
machine otherwise. -/
def Obligations.StepExistsExactlyWhileFetching : Prop :=
  ∀ s : State, (∃ t, step s = .next t) ↔ s.Fetching

/-- `pc` changes in exactly three ways (R175, R112, R171, R172): JUMP makes it `x[r]`, a taken BGTJMP makes it XY, and
every other step that fetches, an untaken BGTJMP included, advances it by 2, which never wraps. JUMP's 16 bits are the
spec's decision D2, log 2. -/
def Obligations.ProgramCounterChangesInThreeWays : Prop :=
  ∀ s t : State, step s = .next t → s.pc.toNat ≤ 255 →
    (∀ r, decodeWord s.fetched = .jump r → t.pc = s.getReg r) ∧
    (∀ r xy, decodeWord s.fetched = .bgtjmp r xy → (s.getReg r).toInt > (s.getReg 0x0#4).toInt →
      t.pc.toNat = xy.toNat) ∧
    ((∀ r, decodeWord s.fetched ≠ .jump r) →
      (∀ r xy, decodeWord s.fetched = .bgtjmp r xy → ¬ (s.getReg r).toInt > (s.getReg 0x0#4).toInt) →
      t.pc.toNat = s.pc.toNat + 2)

/-- Leaving memory always faults at the next step (R119, R111): a step that leaves `pc` at 256 or more, in Fetching, is
followed by the fault, which keeps `pc`; and only the sequential advance to 256 or 257 or a JUMP leaves memory. The
report's content is the spec's decision D13, log 8. -/
def Obligations.LeavingMemoryFaultsNextStep : Prop :=
  ∀ s t : State, step s = .next t → s.pc.toNat ≤ 255 → t.Fetching → 256 ≤ t.pc.toNat →
    (t.pc.toNat ≤ 257 ∨ ∃ r, decodeWord s.fetched = .jump r) ∧
    ∃ u, step t = .next u ∧ u.faulted = true ∧ u.halted = false ∧ u.pc = t.pc ∧ SameRegs t u ∧ SameMemory t u ∧
      u.events = t.events ++ [.faultReport .pcOutOfBounds t.pc]

/-- HALT at the top of memory ends the run Halted, not Faulted (R184): fetched from 254 or 255 it leaves `pc` at 256 or
257, and no further step is made. That `step` answers the missing step with a fault is the model's choice, log 9. -/
def Obligations.HaltAtTopOfMemoryEndsHalted : Prop :=
  ∀ s : State, s.Fetching → s.pc.toNat = 254 ∨ s.pc.toNat = 255 → IsHalt (decodeWord s.fetched) →
    ∃ t, step s = .next t ∧ t.halted = true ∧ t.faulted = false ∧ t.pc.toNat = s.pc.toNat + 2 ∧
      t.runState = .halted ∧ step t = .fault .runEndedHalted

/-- The footprint of a step (R116), read from the decoded instruction: a fault changes `faulted` alone and keeps `pc`;
besides `pc` (and the model's records of events and draws) an instruction with a destination register changes that
register only, STORE to XY the byte at XY only, JUMP and BGTJMP nothing, and HALT `halted` only. -/
def Obligations.StepChangesAtMostOneThing : Prop :=
  ∀ s t : State, step s = .next t →
    (256 ≤ s.pc.toNat ∧ SameRegs s t ∧ SameMemory s t ∧ t.halted = s.halted ∧ t.faulted = true ∧ t.pc = s.pc) ∨
    (s.pc.toNat ≤ 255 ∧ t.faulted = s.faulted ∧
      ((∃ d, destReg (decodeWord s.fetched) = some d ∧ SameRegsBut d s t ∧ SameMemory s t ∧ t.halted = s.halted) ∨
        (∃ r xy, decodeWord s.fetched = .store r xy ∧ SameRegs s t ∧
          (∀ b : Nat, b ≠ effectiveAddress xy → t.readByte b = s.readByte b) ∧ t.halted = s.halted) ∨
        (((∃ r, decodeWord s.fetched = .jump r) ∨ ∃ r xy, decodeWord s.fetched = .bgtjmp r xy) ∧
          SameRegs s t ∧ SameMemory s t ∧ t.halted = s.halted) ∨
        (IsHalt (decodeWord s.fetched) ∧ SameRegs s t ∧ SameMemory s t ∧ t.halted = true)))

/-- Memory is changed by STORE only, at its own address (R32, R61 c). -/
def Obligations.OnlyStoreChangesMemory : Prop :=
  ∀ (s t : State) (a : Nat), step s = .next t → t.readByte a ≠ s.readByte a →
    ∃ r xy, decodeWord s.fetched = .store r xy ∧ xy.toNat = a

/-- Which instructions write which register (R24): LOADM, LOADI, ADD, FADD, OR, AND, XOR and ROR write `x[r]`, MOVE
writes `x[s]`, and nothing else writes a register. -/
def Obligations.RegisterWritersAreTheNine : Prop :=
  ∀ (s t : State) (d : RegIdx), step s = .next t → t.getReg d ≠ s.getReg d →
    (∃ xy, decodeWord s.fetched = .loadm d xy) ∨ (∃ xy, decodeWord s.fetched = .loadi d xy) ∨
    (∃ r, decodeWord s.fetched = .move r d) ∨ (∃ a b, decodeWord s.fetched = .add d a b) ∨
    (∃ a n, decodeWord s.fetched = .fadd d a n) ∨ (∃ a b, decodeWord s.fetched = .or d a b) ∨
    (∃ a b, decodeWord s.fetched = .and d a b) ∨ (∃ a b, decodeWord s.fetched = .xor d a b) ∨
    (∃ n, decodeWord s.fetched = .ror d n)

/-- The run flags (R27, R28): a step sets `halted` exactly when it executes a HALT, and `faulted` exactly when it begins
at or beyond 256; no step clears either. -/
def Obligations.RunFlagsSetOnlyByHaltAndFault : Prop :=
  ∀ s t : State, step s = .next t →
    (t.halted = true ↔ s.pc.toNat ≤ 255 ∧ IsHalt (decodeWord s.fetched)) ∧ (t.faulted = true ↔ 256 ≤ s.pc.toNat)

/-- The output events have no effect on any state (R174, R182): with any other record of past events the same step gives
the same next state, the record apart. -/
def Obligations.EventsHaveNoEffectOnState : Prop :=
  ∀ (s t : State) (past : List Event), step s = .next t →
    ∃ now, step { s with events := past } = .next { t with events := now }

/-- The step is unique but for the one open point (R117): unless it is an FADD whose sum is zero, the free value and the
model's count of draws take no part in it. -/
def Obligations.FreeByteMattersToZeroSumFaddOnly : Prop :=
  ∀ (s t : State) (n : Nat), step s = .next t →
    (∀ r a k, decodeWord s.fetched = .fadd r a k →
      pfDecode ((s.getReg a).extractLsb' 0 8) + pfDecode (k.setWidth 8) ≠ 0) →
    t.draws = s.draws ∧ step { s with draws := n } = .next { t with draws := n }

/-! ### The invariant and reset -/

/-- The core's invariant (R29, R118, R182, and the canonical form of memory) holds after reset. -/
def Obligations.ResetMeetsCoreInvariant : Prop := State.reset.Inv

/-- Every step keeps the core's invariant: memory in canonical form, never both flags (R29), exactly the events owed by
the run state (R118), and a faulted core's `pc` out of bounds. The canonical form and the record of events are the
model's, log 16 and log 8; the report's content is the spec's decision D13. -/
def Obligations.EveryStepKeepsCoreInvariant : Prop :=
  ∀ s t : State, s.Inv → step s = .next t → t.Inv

/-- The reset state (R40 to R43, R200): every register and byte 0, `pc` 0, both flags false, Fetching. The registers'
value is the spec's decision D1, log 1, and PC_RESET = 0 its decision D16, log 12. -/
def Obligations.ResetLeavesEverythingZero : Prop :=
  (∀ i : RegIdx, State.reset.getReg i = 0x0000#16) ∧ State.reset.pc = 0x0000#16 ∧ State.reset.halted = false ∧
  State.reset.faulted = false ∧ (∀ a : Nat, State.reset.readByte a = 0x00#8) ∧ State.reset.runState = .fetching

/-- Running into memory that nothing has loaded halts (R43, R90): a zero word at `pc` is a HALT. -/
def Obligations.UnloadedMemoryHalts : Prop :=
  ∀ s : State, s.Fetching → s.pc.toNat ≤ 254 → s.readByte s.pc.toNat = 0x00#8 →
    s.readByte (s.pc.toNat + 1) = 0x00#8 →
    step s = .next { s with pc := s.pc + 2#16, halted := true, events := s.events ++ [.haltNotice] }

/-! ### The host protocol -/

/-- Reset at any time gives the load phase and every piece of the spec's state its reset value, memory included (R200,
R201). That nothing survives is the spec's decision D19, log 11, the registers' value D1, log 1,
and PC_RESET = 0 its decision D16, log 12. -/
def Obligations.HostResetRestoresEverything : Prop :=
  ∀ p : Session, p.hostReset.phase = .load ∧
    (∀ i : RegIdx, p.hostReset.core.getReg i = 0x0000#16) ∧ p.hostReset.core.pc = 0x0000#16 ∧
    (∀ a : Nat, p.hostReset.core.readByte a = 0x00#8) ∧ p.hostReset.core.Fetching ∧ p.hostReset.core.events = []

/-- The loader writes in the load phase only (R204, R206): there a write sets its byte, or does nothing out of range, and
no register, `pc` or flag; in the run and ended phases the move does not exist. The refusal is the spec's decision D17,
log 10. -/
def Obligations.LoadIsForTheLoadPhaseOnly : Prop :=
  ∀ (p : Session) (a : Int) (b : Byte),
    (p.phase = .load → ∃ q, p.hostLoad a b = .next q ∧ q.phase = .load ∧ q.core = p.core.load a b ∧
      SameRegs p.core q.core ∧ SameControl p.core q.core) ∧
    (p.phase ≠ .load → p.hostLoad a b = .refused .loadOutsideLoadPhase)

/-- The loader's image (R100): word k lands high byte at 2k, low byte at 2k + 1, and every byte past the image is left;
words past the 128th are dropped. -/
def Obligations.LoaderPlacesImageWords : Prop :=
  ∀ (p : Session) (ws : List Word), p.phase = .load →
    ∃ q, p.hostLoadImage ws = .next q ∧ SameRegs p.core q.core ∧ SameControl p.core q.core ∧
      (∀ k : Nat, ∀ h : k < ws.length, k < 128 →
        q.core.readByte (2 * k) = ws[k].extractLsb' 8 8 ∧ q.core.readByte (2 * k + 1) = ws[k].extractLsb' 0 8) ∧
      (∀ a : Nat, 2 * ws.length ≤ a → q.core.readByte a = p.core.readByte a)

/-- The `run` event (R205): it ends the load phase and changes no state of the core; elsewhere it has no effect. -/
def Obligations.RunEventChangesNoCoreState : Prop :=
  ∀ p : Session,
    (p.phase = .load → p.hostRun.core = p.core ∧ p.hostRun.phase ≠ .load) ∧
    (p.phase ≠ .load → p.hostRun = p)

/-- The phases (R203, R110): the core takes a step in the run phase, always, and in no other. -/
def Obligations.CoreStepsInRunPhaseOnly : Prop :=
  ∀ p : Session, (∃ q, p.tick = .next q) ↔ p.phase = .run

/-- The end of a run (R118, R190, R207): in the ended phase the state is frozen and readable, and the run ended in
exactly one of two ways with exactly one event. Readability after a fault is the spec's decision D15, log 9, the report's
content D13, log 8. -/
def Obligations.EndedRunIsFrozenWithOneEvent : Prop :=
  ∀ p : Session, p.Inv → p.phase = .ended →
    (∀ q, p.tick ≠ .next q) ∧ (∀ i, p.regRead i = .next (p.core.regRead i)) ∧
    (∀ a, p.memRead a = .next (p.core.memRead a)) ∧ p.pcRead = .next p.core.pc ∧
    p.runStateRead = .next p.core.runState ∧
    ((p.core.halted = true ∧ p.core.faulted = false ∧ p.core.events = [.haltNotice]) ∨
      (p.core.halted = false ∧ p.core.faulted = true ∧ 256 ≤ p.core.pc.toNat ∧
        p.core.events = [.faultReport .pcOutOfBounds p.core.pc]))

/-- A session right after machine creation meets the session's invariant and is in the load phase (R200, R203). -/
def Obligations.FreshSessionMeetsInvariant : Prop := Session.fresh.Inv ∧ Session.fresh.phase = .load

/-- Every move of the host and every pass of the run loop keeps the session's invariant: before the run only memory
differs from the reset state (R204), and the core's own invariant holds throughout. The reset values of the registers and
the program counter and that memory does not survive a reset are the spec's decisions D1, log 1, D16, log 12, and D19,
log 11. -/
def Obligations.EveryMoveKeepsSessionInvariant : Prop :=
  ∀ p : Session, p.Inv →
    p.hostReset.Inv ∧ p.hostRun.Inv ∧ (∀ a b q, p.hostLoad a b = .next q → q.Inv) ∧
    (∀ ws q, p.hostLoadImage ws = .next q → q.Inv) ∧ (∀ q, p.tick = .next q → q.Inv)
end

