-- ==== Sys2Proof/Laws/Decode.lean ====
section
/-! SUPPORT. The fields of a word and the word of its fields (30_encoding.md R81, R84). -/
namespace Sys2Proof

/-- The opcode of a packed word (R81). -/
theorem opField_pack (op r s t : Nibble) : opField (packFields op r s t) = op := by
  refine BitVec.eq_of_getLsbD_eq fun i hi => ?_
  simp [opField, packFields]; grind

/-- The r field of a packed word (R81). -/
theorem rField_pack (op r s t : Nibble) : rField (packFields op r s t) = r := by
  refine BitVec.eq_of_getLsbD_eq fun i hi => ?_
  simp [rField, packFields]; grind

/-- The s field of a packed word (R81). -/
theorem sField_pack (op r s t : Nibble) : sField (packFields op r s t) = s := by
  refine BitVec.eq_of_getLsbD_eq fun i hi => ?_
  simp [sField, packFields]; grind

/-- The t field of a packed word (R81). -/
theorem tField_pack (op r s t : Nibble) : tField (packFields op r s t) = t := by
  refine BitVec.eq_of_getLsbD_eq fun i hi => ?_
  simp [tField, packFields]; grind

/-- A word is its four fields packed (R81, R82). -/
theorem pack_fields (w : Word) : packFields (opField w) (rField w) (sField w) (tField w) = w := by
  refine BitVec.eq_of_getLsbD_eq fun i hi => ?_
  simp [opField, rField, sField, tField, packFields]; grind

/-- The immediate of the nibbles of a byte is the byte (R84). -/
theorem immediate_nibbles (xy : Byte) : immediate (immediateHigh xy) (immediateLow xy) = xy := by
  decide +revert

/-- The nibbles of an immediate are the fields it was made of (R84). -/
theorem nibbles_immediate (s t : Nibble) : immediateHigh (immediate s t) = s ∧ immediateLow (immediate s t) = t := by
  decide +revert

/-- The bytes of a word in memory order make the word again (20_memory.md R52). -/
theorem wordOfBytes_bytes (w : Word) : wordOfBytes (w.extractLsb' 8 8) (w.extractLsb' 0 8) = w := by
  refine BitVec.eq_of_getLsbD_eq fun i hi => ?_
  simp [wordOfBytes]; grind

end Sys2Proof
end

