-- ==== Sys2Proof/Laws/Memory.lean ====
section
/-! SUPPORT. What the memory operations do: a read after a write, and that every write keeps the canonical form. -/
namespace Sys2Proof.Machine

theorem Memory.lookup_erase (m : Memory) (a b : Nat) :
    Memory.lookup (Memory.erase a m) b = if b = a then Config.memFill else Memory.lookup m b := by
  induction m with
  | nil => simp [Memory.erase, Memory.lookup]
  | cons c m ih =>
    obtain ⟨k, w⟩ := c
    by_cases hk : k = a <;> by_cases hb : k = b <;> simp_all [Memory.erase, Memory.lookup]

theorem Memory.lookup_insert (m : Memory) (a b : Nat) (v : Byte) (hm : ∀ c ∈ m, c.1 ≠ a) :
    Memory.lookup (Memory.insert a v m) b = if b = a then v else Memory.lookup m b := by
  induction m with
  | nil => simp [Memory.insert, Memory.lookup, eq_comm]
  | cons c m ih =>
    obtain ⟨k, w⟩ := c
    have hk : k ≠ a := hm (k, w) (by simp)
    have ih := ih fun c hc => hm c (by simp [hc])
    simp only [Memory.insert]
    split
    · simp [Memory.lookup, eq_comm]
    · simp only [Memory.lookup, ih]
      by_cases hb : k = b
      · subst hb; simp [hk]
      · simp [hb]

theorem Memory.erase_no_cell (m : Memory) (a : Nat) : ∀ c ∈ Memory.erase a m, c.1 ≠ a := by
  induction m with
  | nil => simp [Memory.erase]
  | cons c m ih =>
    obtain ⟨k, w⟩ := c
    simp only [Memory.erase]
    split
    · exact ih
    · rename_i hk
      intro c hc
      rcases List.mem_cons.mp hc with rfl | hc
      · exact hk
      · exact ih c hc

/-- Read after write, on every memory, canonical or not (20_memory.md R50, R51). -/
theorem Memory.read_write (m : Memory) (a b : Nat) (v : Byte) :
    Memory.read (Memory.write m a v) b = if b = a ∧ a < Config.memSize then v else Memory.read m b := by
  have he := Memory.lookup_erase m a
  have hn := Memory.erase_no_cell m a
  unfold Memory.read Memory.write
  by_cases ha : a < Config.memSize
  · by_cases hv : v = Config.memFill
    · simp only [ha, hv, if_true, he]; grind
    · simp only [ha, hv, if_true, if_false]
      rw [Memory.lookup_insert _ _ _ _ hn, he]; grind
  · simp only [ha, if_false]; grind

/-- An address outside memory reads 0x00 (R50). -/
theorem Memory.read_out_of_range (m : Memory) (a : Nat) (h : Config.memSize ≤ a) : Memory.read m a = 0x00#8 := by
  simp [Memory.read, Nat.not_lt.mpr h]

theorem Memory.wfFrom_mono (m : Memory) {lo hi : Nat} (h : lo ≤ hi) (w : Memory.wfFrom hi m = true) :
    Memory.wfFrom lo m = true := by
  cases m with
  | nil => rfl
  | cons c m => obtain ⟨k, x⟩ := c; simp_all [Memory.wfFrom]; omega

theorem Memory.wfFrom_erase (m : Memory) (a lo : Nat) (w : Memory.wfFrom lo m = true) :
    Memory.wfFrom lo (Memory.erase a m) = true := by
  induction m generalizing lo with
  | nil => rfl
  | cons c m ih =>
    obtain ⟨k, x⟩ := c
    simp only [Memory.wfFrom, Bool.and_eq_true, decide_eq_true_eq] at w
    simp only [Memory.erase]
    split
    · exact ih lo (Memory.wfFrom_mono m (by omega) w.2)
    · simp only [Memory.wfFrom, Bool.and_eq_true, decide_eq_true_eq]
      exact ⟨w.1, ih (k + 1) w.2⟩

theorem Memory.wfFrom_insert (m : Memory) (a lo : Nat) (v : Byte) (w : Memory.wfFrom lo m = true) (hl : lo ≤ a)
    (ha : a < Config.memSize) (hv : v ≠ Config.memFill) (hm : ∀ c ∈ m, c.1 ≠ a) :
    Memory.wfFrom lo (Memory.insert a v m) = true := by
  induction m generalizing lo with
  | nil => simp_all [Memory.insert, Memory.wfFrom]
  | cons c m ih =>
    obtain ⟨k, x⟩ := c
    have hk : k ≠ a := hm (k, x) (by simp)
    have ht : ∀ c ∈ m, c.1 ≠ a := fun c hc => hm c (by simp [hc])
    simp only [Memory.wfFrom, Bool.and_eq_true, decide_eq_true_eq] at w
    simp only [Memory.insert]
    split
    · simp only [Memory.wfFrom, Bool.and_eq_true, decide_eq_true_eq]
      exact ⟨⟨⟨hl, ha⟩, hv⟩, ⟨⟨⟨by omega, w.1.1.2⟩, w.1.2⟩, w.2⟩⟩
    · simp only [Memory.wfFrom, Bool.and_eq_true, decide_eq_true_eq]
      exact ⟨w.1, ih (k + 1) w.2 (by omega) ht⟩

/-- Every write keeps the canonical form. -/
theorem Memory.wf_write (m : Memory) (a : Nat) (v : Byte) (w : Memory.wf m = true) :
    Memory.wf (Memory.write m a v) = true := by
  unfold Memory.write
  split
  · split
    · exact Memory.wfFrom_erase m a 0 w
    · exact Memory.wfFrom_insert _ a 0 v (Memory.wfFrom_erase m a 0 w) (Nat.zero_le a) ‹_› ‹_›
        (Memory.erase_no_cell m a)
  · exact w

theorem Memory.lookup_below (m : Memory) (lo a : Nat) (w : Memory.wfFrom lo m = true) (h : a < lo) :
    Memory.lookup m a = Config.memFill := by
  induction m generalizing lo with
  | nil => rfl
  | cons c m ih =>
    obtain ⟨k, x⟩ := c
    simp only [Memory.wfFrom, Bool.and_eq_true, decide_eq_true_eq] at w
    simp only [Memory.lookup]
    rw [if_neg (by omega)]
    exact ih (k + 1) w.2 (by omega)

theorem Memory.eq_of_lookup (m n : Memory) (lo : Nat) (wm : Memory.wfFrom lo m = true)
    (wn : Memory.wfFrom lo n = true) (h : ∀ a, Memory.lookup m a = Memory.lookup n a) : m = n := by
  induction m generalizing n lo with
  | nil =>
    cases n with
    | nil => rfl
    | cons d n =>
      obtain ⟨j, y⟩ := d
      have := h j
      simp_all [Memory.lookup, Memory.wfFrom]
  | cons c m ih =>
    obtain ⟨k, x⟩ := c
    cases n with
    | nil =>
      have := h k
      simp_all [Memory.lookup, Memory.wfFrom]
    | cons d n =>
      obtain ⟨j, y⟩ := d
      simp only [Memory.wfFrom, Bool.and_eq_true, decide_eq_true_eq] at wm wn
      have hk : k = j := by
        rcases Nat.lt_trichotomy k j with hlt | heq | hgt
        · have := h k
          have hb := Memory.lookup_below n (j + 1) k wn.2 (by omega)
          simp only [Memory.lookup, if_true] at this
          rw [if_neg (by omega), hb] at this
          exact absurd this wm.1.2
        · exact heq
        · have := h j
          have hb := Memory.lookup_below m (k + 1) j wm.2 (by omega)
          simp only [Memory.lookup, if_true] at this
          rw [if_neg (by omega), hb] at this
          exact absurd this.symm wn.1.2
      subst hk
      have hx : x = y := by simpa [Memory.lookup] using h k
      subst hx
      refine congrArg _ (ih n (k + 1) wm.2 wn.2 fun a => ?_)
      by_cases ha : a = k
      · subst ha
        rw [Memory.lookup_below m (a + 1) a wm.2 (by omega), Memory.lookup_below n (a + 1) a wn.2 (by omega)]
      · simpa [Memory.lookup, Ne.symm ha] using h a

theorem Memory.lookup_above (m : Memory) (lo a : Nat) (w : Memory.wfFrom lo m = true) (h : Config.memSize ≤ a) :
    Memory.lookup m a = Config.memFill := by
  induction m generalizing lo with
  | nil => rfl
  | cons c m ih =>
    obtain ⟨k, x⟩ := c
    simp only [Memory.wfFrom, Bool.and_eq_true, decide_eq_true_eq] at w
    simp only [Memory.lookup]
    rw [if_neg (by omega)]
    exact ih (k + 1) w.2

/-- Canonical memories that read the same everywhere are the same list. -/
theorem Memory.eq_of_read (m n : Memory) (wm : Memory.wf m = true) (wn : Memory.wf n = true)
    (h : ∀ a, Memory.read m a = Memory.read n a) : m = n := by
  refine Memory.eq_of_lookup m n 0 wm wn fun a => ?_
  by_cases ha : a < Config.memSize
  · simpa [Memory.read, ha] using h a
  · rw [Memory.lookup_above m 0 a wm (by omega), Memory.lookup_above n 0 a wn (by omega)]

end Sys2Proof.Machine
end

