-- ==== Sys2Proof/Laws/State.lean ====
section
/-! SUPPORT. One lemma per field per update of the state, so that no proof unfolds a record update. -/
namespace Sys2Proof.Machine

variable (s : State)

/-! ### `withRegs` -/

@[simp] theorem State.withRegs_regs (v : Vector Word 16) : (s.withRegs v).regs = v := rfl
@[simp] theorem State.withRegs_pc (v : Vector Word 16) : (s.withRegs v).pc = s.pc := rfl
@[simp] theorem State.withRegs_halted (v : Vector Word 16) : (s.withRegs v).halted = s.halted := rfl
@[simp] theorem State.withRegs_faulted (v : Vector Word 16) : (s.withRegs v).faulted = s.faulted := rfl
@[simp] theorem State.withRegs_mem (v : Vector Word 16) : (s.withRegs v).mem = s.mem := rfl
@[simp] theorem State.withRegs_events (v : Vector Word 16) : (s.withRegs v).events = s.events := rfl
@[simp] theorem State.withRegs_draws (v : Vector Word 16) : (s.withRegs v).draws = s.draws := rfl

/-! ### `setPc` -/

@[simp] theorem State.setPc_regs (v : Word) : (s.setPc v).regs = s.regs := rfl
@[simp] theorem State.setPc_pc (v : Word) : (s.setPc v).pc = v := rfl
@[simp] theorem State.setPc_halted (v : Word) : (s.setPc v).halted = s.halted := rfl
@[simp] theorem State.setPc_faulted (v : Word) : (s.setPc v).faulted = s.faulted := rfl
@[simp] theorem State.setPc_mem (v : Word) : (s.setPc v).mem = s.mem := rfl
@[simp] theorem State.setPc_events (v : Word) : (s.setPc v).events = s.events := rfl
@[simp] theorem State.setPc_draws (v : Word) : (s.setPc v).draws = s.draws := rfl

/-! ### `withMem` -/

@[simp] theorem State.withMem_regs (m : Memory) : (s.withMem m).regs = s.regs := rfl
@[simp] theorem State.withMem_pc (m : Memory) : (s.withMem m).pc = s.pc := rfl
@[simp] theorem State.withMem_halted (m : Memory) : (s.withMem m).halted = s.halted := rfl
@[simp] theorem State.withMem_faulted (m : Memory) : (s.withMem m).faulted = s.faulted := rfl
@[simp] theorem State.withMem_mem (m : Memory) : (s.withMem m).mem = m := rfl
@[simp] theorem State.withMem_events (m : Memory) : (s.withMem m).events = s.events := rfl
@[simp] theorem State.withMem_draws (m : Memory) : (s.withMem m).draws = s.draws := rfl

/-! ### `setHalted` -/

@[simp] theorem State.setHalted_regs : (s.setHalted).regs = s.regs := rfl
@[simp] theorem State.setHalted_pc : (s.setHalted).pc = s.pc := rfl
@[simp] theorem State.setHalted_halted : (s.setHalted).halted = true := rfl
@[simp] theorem State.setHalted_faulted : (s.setHalted).faulted = s.faulted := rfl
@[simp] theorem State.setHalted_mem : (s.setHalted).mem = s.mem := rfl
@[simp] theorem State.setHalted_events : (s.setHalted).events = s.events := rfl
@[simp] theorem State.setHalted_draws : (s.setHalted).draws = s.draws := rfl

/-! ### `setFaulted` -/

@[simp] theorem State.setFaulted_regs : (s.setFaulted).regs = s.regs := rfl
@[simp] theorem State.setFaulted_pc : (s.setFaulted).pc = s.pc := rfl
@[simp] theorem State.setFaulted_halted : (s.setFaulted).halted = s.halted := rfl
@[simp] theorem State.setFaulted_faulted : (s.setFaulted).faulted = true := rfl
@[simp] theorem State.setFaulted_mem : (s.setFaulted).mem = s.mem := rfl
@[simp] theorem State.setFaulted_events : (s.setFaulted).events = s.events := rfl
@[simp] theorem State.setFaulted_draws : (s.setFaulted).draws = s.draws := rfl

/-! ### `emit` -/

@[simp] theorem State.emit_regs (e : Event) : (s.emit e).regs = s.regs := rfl
@[simp] theorem State.emit_pc (e : Event) : (s.emit e).pc = s.pc := rfl
@[simp] theorem State.emit_halted (e : Event) : (s.emit e).halted = s.halted := rfl
@[simp] theorem State.emit_faulted (e : Event) : (s.emit e).faulted = s.faulted := rfl
@[simp] theorem State.emit_mem (e : Event) : (s.emit e).mem = s.mem := rfl
@[simp] theorem State.emit_events (e : Event) : (s.emit e).events = s.events ++ [e] := rfl
@[simp] theorem State.emit_draws (e : Event) : (s.emit e).draws = s.draws := rfl

/-! ### `advanceDraws` -/

@[simp] theorem State.advanceDraws_regs : (s.advanceDraws).regs = s.regs := rfl
@[simp] theorem State.advanceDraws_pc : (s.advanceDraws).pc = s.pc := rfl
@[simp] theorem State.advanceDraws_halted : (s.advanceDraws).halted = s.halted := rfl
@[simp] theorem State.advanceDraws_faulted : (s.advanceDraws).faulted = s.faulted := rfl
@[simp] theorem State.advanceDraws_mem : (s.advanceDraws).mem = s.mem := rfl
@[simp] theorem State.advanceDraws_events : (s.advanceDraws).events = s.events := rfl
@[simp] theorem State.advanceDraws_draws : (s.advanceDraws).draws = s.draws + 1 := rfl

/-! ### The readers through the updates that leave them alone -/

@[simp] theorem State.readByte_withRegs (v : Vector Word 16) (a : Nat) : (s.withRegs v).readByte a = s.readByte a := rfl
@[simp] theorem State.getReg_setPc (v : Word) (i : RegIdx) : (s.setPc v).getReg i = s.getReg i := rfl
@[simp] theorem State.readByte_setPc (v : Word) (a : Nat) : (s.setPc v).readByte a = s.readByte a := rfl
@[simp] theorem State.getReg_withMem (m : Memory) (i : RegIdx) : (s.withMem m).getReg i = s.getReg i := rfl
@[simp] theorem State.getReg_setHalted (i : RegIdx) : (s.setHalted).getReg i = s.getReg i := rfl
@[simp] theorem State.readByte_setHalted (a : Nat) : (s.setHalted).readByte a = s.readByte a := rfl
@[simp] theorem State.getReg_setFaulted (i : RegIdx) : (s.setFaulted).getReg i = s.getReg i := rfl
@[simp] theorem State.readByte_setFaulted (a : Nat) : (s.setFaulted).readByte a = s.readByte a := rfl
@[simp] theorem State.getReg_emit (e : Event) (i : RegIdx) : (s.emit e).getReg i = s.getReg i := rfl
@[simp] theorem State.readByte_emit (e : Event) (a : Nat) : (s.emit e).readByte a = s.readByte a := rfl
@[simp] theorem State.getReg_advanceDraws (i : RegIdx) : (s.advanceDraws).getReg i = s.getReg i := rfl
@[simp] theorem State.readByte_advanceDraws (a : Nat) : (s.advanceDraws).readByte a = s.readByte a := rfl

/-! ### `setReg` -/

@[simp] theorem State.setReg_pc (i : RegIdx) (v : Word) : (s.setReg i v).pc = s.pc := rfl
@[simp] theorem State.setReg_halted (i : RegIdx) (v : Word) : (s.setReg i v).halted = s.halted := rfl
@[simp] theorem State.setReg_faulted (i : RegIdx) (v : Word) : (s.setReg i v).faulted = s.faulted := rfl
@[simp] theorem State.setReg_mem (i : RegIdx) (v : Word) : (s.setReg i v).mem = s.mem := rfl
@[simp] theorem State.setReg_events (i : RegIdx) (v : Word) : (s.setReg i v).events = s.events := rfl
@[simp] theorem State.setReg_draws (i : RegIdx) (v : Word) : (s.setReg i v).draws = s.draws := rfl

/-! ### `writeByte` -/

@[simp] theorem State.writeByte_regs (a : Nat) (v : Byte) : (s.writeByte a v).regs = s.regs := rfl
@[simp] theorem State.writeByte_pc (a : Nat) (v : Byte) : (s.writeByte a v).pc = s.pc := rfl
@[simp] theorem State.writeByte_halted (a : Nat) (v : Byte) : (s.writeByte a v).halted = s.halted := rfl
@[simp] theorem State.writeByte_faulted (a : Nat) (v : Byte) : (s.writeByte a v).faulted = s.faulted := rfl
@[simp] theorem State.writeByte_events (a : Nat) (v : Byte) : (s.writeByte a v).events = s.events := rfl
@[simp] theorem State.writeByte_draws (a : Nat) (v : Byte) : (s.writeByte a v).draws = s.draws := rfl

@[simp] theorem State.readByte_setReg (i : RegIdx) (v : Word) (a : Nat) : (s.setReg i v).readByte a = s.readByte a := rfl
@[simp] theorem State.getReg_writeByte (a : Nat) (v : Byte) (i : RegIdx) : (s.writeByte a v).getReg i = s.getReg i := rfl
@[simp] theorem State.advancePc_pc : s.advancePc.pc = s.pc + 2#16 := rfl
@[simp] theorem State.advancePc_regs : s.advancePc.regs = s.regs := rfl
@[simp] theorem State.advancePc_halted : s.advancePc.halted = s.halted := rfl
@[simp] theorem State.advancePc_faulted : s.advancePc.faulted = s.faulted := rfl
@[simp] theorem State.advancePc_mem : s.advancePc.mem = s.mem := rfl
@[simp] theorem State.advancePc_events : s.advancePc.events = s.events := rfl
@[simp] theorem State.advancePc_draws : s.advancePc.draws = s.draws := rfl
@[simp] theorem State.getReg_advancePc (i : RegIdx) : s.advancePc.getReg i = s.getReg i := rfl
@[simp] theorem State.readByte_advancePc (a : Nat) : s.advancePc.readByte a = s.readByte a := rfl
@[simp] theorem State.getReg_haltRun (i : RegIdx) : s.haltRun.getReg i = s.getReg i := rfl
@[simp] theorem State.readByte_haltRun (a : Nat) : s.haltRun.readByte a = s.readByte a := rfl

/-! ### The run state -/

/-- Fetching is: neither flag set (10_state.md R29). -/
theorem State.runState_fetching : s.runState = .fetching ↔ s.halted = false ∧ s.faulted = false := by
  unfold State.runState
  cases s.halted <;> cases s.faulted <;> simp

/-- Halted is: `halted` set and `faulted` not (10_state.md R29). -/
theorem State.runState_halted : s.runState = .halted ↔ s.halted = true ∧ s.faulted = false := by
  unfold State.runState
  cases s.halted <;> cases s.faulted <;> simp

/-- Faulted is: `faulted` set (10_state.md R29). -/
theorem State.runState_faulted : s.runState = .faulted ↔ s.faulted = true := by
  unfold State.runState
  cases s.halted <;> cases s.faulted <;> simp

end Sys2Proof.Machine
end

