-- ==== Sys2Proof/Laws/Ops.lean ====
section
/-! SUPPORT. One lemma per shared operation that says once everything it does; proofs cite these instead of unfolding. -/
namespace Sys2Proof.Machine

/-! ### Registers and memory through the state -/

/-- Set then get (10_state.md R22, R23). -/
theorem State.getReg_setReg (s : State) (i j : RegIdx) (v : Word) :
    (s.setReg i v).getReg j = if j = i then v else s.getReg j := by
  simp [State.getReg, State.setReg, State.withRegs, Vector.getElem_set, BitVec.toNat_inj, eq_comm]

@[simp] theorem State.getReg_setReg_same (s : State) (i : RegIdx) (v : Word) : (s.setReg i v).getReg i = v := by
  simp [State.getReg_setReg]

/-- Write then read of a byte (20_memory.md R50, R51). -/
theorem State.readByte_writeByte (s : State) (a b : Nat) (v : Byte) :
    (s.writeByte a v).readByte b = if b = a ∧ a < Config.memSize then v else s.readByte b :=
  Memory.read_write s.mem a b v

/-- A byte written through the state keeps the canonical form of memory. -/
theorem State.writeByte_wf (s : State) (a : Nat) (v : Byte) (h : Memory.wf s.mem = true) :
    Memory.wf (s.writeByte a v).mem = true :=
  Memory.wf_write s.mem a v h

/-- The loader's write keeps the canonical form of memory. -/
theorem State.load_wf (s : State) (a : Int) (b : Byte) (h : Memory.wf s.mem = true) :
    Memory.wf (s.load a b).mem = true := by
  unfold State.load
  split
  · exact s.writeByte_wf _ b h
  · exact h

/-- A program image keeps the canonical form of memory. -/
theorem State.loadWordsAt_wf (s : State) (a : Nat) (ws : List Word) (h : Memory.wf s.mem = true) :
    Memory.wf (s.loadWordsAt a ws).mem = true := by
  induction ws generalizing s a with
  | nil => exact h
  | cons w ws ih => exact ih _ _ (State.writeByte_wf _ _ _ (State.writeByte_wf _ _ _ h))

/-- A placed instruction word keeps the canonical form of memory. -/
theorem State.placeWord_wf (s : State) (w : Word) (h : Memory.wf s.mem = true) :
    Memory.wf (s.placeWord w).mem = true :=
  State.writeByte_wf _ _ _ (State.writeByte_wf _ _ _ h)

/-- Memory at reset is in canonical form. -/
theorem State.reset_wf : Memory.wf State.reset.mem = true := rfl

/-- Every register at reset holds REG_RESET (10_state.md R40). -/
theorem State.getReg_reset (i : RegIdx) : State.reset.getReg i = Config.regReset := by
  simp [State.getReg, State.reset]

/-- Every byte at reset reads 0x00 (10_state.md R43). -/
theorem State.readByte_reset (a : Nat) : State.reset.readByte a = 0x00#8 := by
  simp [State.readByte, Memory.read, Memory.lookup, State.reset]

/-- Equal registers read one by one are an equal register file. -/
theorem State.regs_eq_of_getReg (s t : State) (h : ∀ i, s.getReg i = t.getReg i) : s.regs = t.regs := by
  refine Vector.ext fun i hi => ?_
  have := h (BitVec.ofNat 4 i)
  simpa [State.getReg, Nat.mod_eq_of_lt hi] using this

/-! ### The fetch -/

/-- The fetch is the two tolerant byte reads, high byte first (20_memory.md R52). -/
theorem State.fetched_eq (s : State) :
    s.fetched = wordOfBytes (s.readByte s.pc.toNat) (s.readByte (s.pc.toNat + 1)) := rfl

/-! ### The step -/

/-- The inversion of `step`: a next state comes from Fetching only, and it is the fault raised or the decoded
instruction executed (40_fetch_decode.md R110 to R116). -/
theorem step_next_cases {s t : State} (h : step s = .next t) :
    s.halted = false ∧ s.faulted = false ∧
      ((256 ≤ s.pc.toNat ∧ t = s.raisePcOutOfBounds) ∨
        (s.pc.toNat < 256 ∧ exec (decodeWord s.fetched) s.advancePc = .next t)) := by
  unfold step at h
  split at h
  · exact absurd h (by simp)
  · exact absurd h (by simp)
  · rename_i hr
    obtain ⟨h1, h2⟩ := s.runState_fetching.mp hr
    refine ⟨h1, h2, ?_⟩
    by_cases hp : s.pc.toNat < 256
    · rw [if_pos (by simpa [State.pcInBounds] using hp)] at h
      exact .inr ⟨hp, h⟩
    · rw [if_neg (by simpa [State.pcInBounds] using hp)] at h
      simp only [Host.Outcome.next.injEq] at h
      exact .inl ⟨by omega, h.symm⟩

/-- `step` in Fetching below 256 is `exec` of the fetched word after the advance (R112 to R114). -/
theorem step_fetching (s : State) (hh : s.halted = false) (hf : s.faulted = false) (hp : s.pc.toNat < 256) :
    step s = exec (decodeWord s.fetched) s.advancePc := by
  simp [step, s.runState_fetching.mpr ⟨hh, hf⟩, State.pcInBounds, hp]

/-- `step` in Fetching at or beyond 256 raises the fault (R111). -/
theorem step_out_of_bounds (s : State) (hh : s.halted = false) (hf : s.faulted = false) (hp : 256 ≤ s.pc.toNat) :
    step s = .next s.raisePcOutOfBounds := by
  simp [step, s.runState_fetching.mpr ⟨hh, hf⟩, State.pcInBounds, hp]

/-- FADD's action: a register write, of the encoded sum or of the free byte (43_packed_float.md R158, R160). -/
theorem State.faddWrite_cases (wrap : PfWrap) (r a : RegIdx) (t : Nibble) (s : State) :
    (∃ b, pfEncodeQ wrap (faddSum (s.getReg a) t) = some b ∧ s.faddWrite wrap r a t = s.setReg r (zext16 b)) ∨
      (faddSum (s.getReg a) t = 0 ∧
        s.faddWrite wrap r a t = (s.setReg r (zext16 (Config.faddZeroResult s.draws))).advanceDraws) := by
  unfold State.faddWrite
  split
  · exact .inl ⟨_, ‹_›, rfl⟩
  · rename_i hn
    refine .inr ⟨?_, rfl⟩
    by_contra hz
    simp [pfEncodeQ, hz] at hn

end Sys2Proof.Machine
end

