-- ==== Sys2Proof/Laws/PerInstr.lean ====
section
/-! SUPPORT. The per-instruction family `CanonicalEncoding`: an instruction is well formed, its encoding carries its opcode
in the top nibble, and every field its opcode ignores is 0 there (30_encoding.md R81, R86, R98). -/
namespace Sys2Proof.Laws.CanonicalEncoding

/-- What the family says of one instruction. -/
def Statement (i : Instr) : Prop :=
  i.wf = true ∧ opField (encode i) = i.opcode ∧ isCanonicalWord (encode i) = true

/-- A packed word whose opcode ignores no field is canonical. -/
theorem canonical_of_no_ignored (op r s t : Nibble) (h : ignoredMask op = 0x0000#16) :
    isCanonicalWord (packFields op r s t) = true := by
  have ho : (packFields op r s t).extractLsb' 12 4 = op := opField_pack op r s t
  simp [isCanonicalWord, ho, h]

theorem loadm (r : RegIdx) (xy : Byte) : Statement (.loadm r xy) :=
  ⟨rfl, opField_pack _ _ _ _, canonical_of_no_ignored _ _ _ _ rfl⟩

theorem loadi (r : RegIdx) (xy : Byte) : Statement (.loadi r xy) :=
  ⟨rfl, opField_pack _ _ _ _, canonical_of_no_ignored _ _ _ _ rfl⟩

theorem store (r : RegIdx) (xy : Byte) : Statement (.store r xy) :=
  ⟨rfl, opField_pack _ _ _ _, canonical_of_no_ignored _ _ _ _ rfl⟩

theorem move (r s : RegIdx) : Statement (.move r s) :=
  ⟨rfl, opField_pack _ _ _ _, by decide +revert⟩

theorem add (r s t : RegIdx) : Statement (.add r s t) :=
  ⟨rfl, opField_pack _ _ _ _, canonical_of_no_ignored _ _ _ _ rfl⟩

theorem fadd (r s : RegIdx) (t : Nibble) : Statement (.fadd r s t) :=
  ⟨rfl, opField_pack _ _ _ _, canonical_of_no_ignored _ _ _ _ rfl⟩

theorem or (r s t : RegIdx) : Statement (.or r s t) :=
  ⟨rfl, opField_pack _ _ _ _, canonical_of_no_ignored _ _ _ _ rfl⟩

theorem and (r s t : RegIdx) : Statement (.and r s t) :=
  ⟨rfl, opField_pack _ _ _ _, canonical_of_no_ignored _ _ _ _ rfl⟩

theorem xor (r s t : RegIdx) : Statement (.xor r s t) :=
  ⟨rfl, opField_pack _ _ _ _, canonical_of_no_ignored _ _ _ _ rfl⟩

theorem ror (r : RegIdx) (s : Nibble) : Statement (.ror r s) :=
  ⟨rfl, opField_pack _ _ _ _, by decide +revert⟩

theorem jump (r : RegIdx) : Statement (.jump r) :=
  ⟨rfl, opField_pack _ _ _ _, by decide +revert⟩

theorem halt : Statement .halt := ⟨rfl, rfl, rfl⟩

theorem bgtjmp (r : RegIdx) (xy : Byte) : Statement (.bgtjmp r xy) :=
  ⟨rfl, opField_pack _ _ _ _, canonical_of_no_ignored _ _ _ _ rfl⟩

theorem haltOp0 : Statement .haltOp0 := ⟨rfl, rfl, rfl⟩

theorem haltOpE : Statement .haltOpE := ⟨rfl, rfl, rfl⟩

theorem haltOpF : Statement .haltOpF := ⟨rfl, rfl, rfl⟩

end Sys2Proof.Laws.CanonicalEncoding
end

