-- ==== Sys2Proof/Tests/Slice0.lean ====
section
/-! SUPPORT. Tests. Expected values come from spec/95_test_vectors.md (B1 to B8, A1 to A15), named in each comment, or from the
encoding tables; witnesses show that the hypotheses of the obligations can be met together. -/
namespace Sys2Proof.Tests

open Sys2Proof.Machine

/-! ### Well-formedness: each check refuses an ill-formed word (R87, R98) -/

theorem test_move_with_t_is_not_canonical : isCanonicalWord 0x412F#16 = false ∧ isCanonicalWord 0x4120#16 = true := by decide
theorem test_ror_with_t_is_not_canonical : isCanonicalWord 0xA13F#16 = false ∧ isCanonicalWord 0xA130#16 = true := by decide
theorem test_jump_with_s_or_t_is_not_canonical :
    isCanonicalWord 0xB410#16 = false ∧ isCanonicalWord 0xB401#16 = false ∧ isCanonicalWord 0xB400#16 = true := by decide
theorem test_halt_with_fields_is_not_canonical :
    isCanonicalWord 0xC100#16 = false ∧ isCanonicalWord 0x0010#16 = false ∧ isCanonicalWord 0xE001#16 = false ∧
    isCanonicalWord 0xF800#16 = false ∧ isCanonicalWord 0xC000#16 = true := by decide
theorem test_canonical_word_clears_ignored_fields : canonicalWord 0xB4FF#16 = 0xB400#16 ∧ canonicalWord 0x5FFF#16 = 0x5FFF#16 := by decide
theorem test_short_bytes_refused : decodeBytes [0x20#8] = .error .truncated ∧ decodeBytes [] = .error .truncated := by decide

/-! ### Decoding: every constructor on a word written out from the encoding (B1) -/

theorem test_decode_loadm : decodeWord 0x1FA5#16 = .loadm 0xF#4 0xA5#8 := by decide
theorem test_decode_loadi : decodeWord 0x2ABC#16 = .loadi 0xA#4 0xBC#8 := by decide
theorem test_decode_store : decodeWord 0x3C80#16 = .store 0xC#4 0x80#8 := by decide
theorem test_decode_move : decodeWord 0x412F#16 = .move 0x1#4 0x2#4 := by decide
theorem test_decode_add : decodeWord 0x5987#16 = .add 0x9#4 0x8#4 0x7#4 := by decide
theorem test_decode_fadd : decodeWord 0x621C#16 = .fadd 0x2#4 0x1#4 0xC#4 := by decide
theorem test_decode_or : decodeWord 0x7312#16 = .or 0x3#4 0x1#4 0x2#4 := by decide
theorem test_decode_and : decodeWord 0x8312#16 = .and 0x3#4 0x1#4 0x2#4 := by decide
theorem test_decode_xor : decodeWord 0x9312#16 = .xor 0x3#4 0x1#4 0x2#4 := by decide
theorem test_decode_ror : decodeWord 0xA13F#16 = .ror 0x1#4 0x3#4 := by decide
theorem test_decode_jump : decodeWord 0xB4FF#16 = .jump 0x4#4 := by decide
theorem test_decode_halt : decodeWord 0xC123#16 = .halt := by decide
theorem test_decode_bgtjmp : decodeWord 0xD140#16 = .bgtjmp 0x1#4 0x40#8 := by decide
theorem test_decode_haltOp0 : decodeWord 0x0ABC#16 = .haltOp0 := by decide
theorem test_decode_haltOpE : decodeWord 0xE123#16 = .haltOpE := by decide
theorem test_decode_haltOpF : decodeWord 0xFFFF#16 = .haltOpF := by decide
theorem test_encode_is_hex_digits : encode (.fadd 0x2#4 0x1#4 0xC#4) = 0x621C#16 ∧ encode (.bgtjmp 0x1#4 0x40#8) = 0xD140#16 := by decide
theorem test_table_word : decodeTableWord 16 0x5201 = some (.add 0x2#4 0x0#4 0x1#4) ∧ decodeTableWord 16 0x10000 = none := by decide

/-! ### Small states and readers of an outcome -/

/-- Reset, with a program counter, some registers and some bytes. -/
def stateWith (pc : Word) (regs : List (RegIdx × Word)) (bytes : List Host.Cell) : State :=
  bytes.foldl (fun s c => s.writeByte c.1 c.2)
    (regs.foldl (fun s c => s.setReg c.1 c.2) (State.reset.setPc pc))

/-- A reading of the next state, if there is one. -/
def after {α : Type} (o : Host.Outcome State Fault Refusal) (f : State → α) : Option α :=
  match o with
  | .next t => some (f t)
  | _ => none

/-- One step on a word stored at address 6 (B7), with some registers and bytes. -/
def runAt6 (w : Nat) (regs : List (RegIdx × Word)) (bytes : List Host.Cell) : Host.Outcome State Fault Refusal :=
  step ((stateWith 0x0006#16 regs bytes).withFetchWord 16 w)

/-! ### One step each (B2) -/

theorem test_loadm_zero_extends : after (runAt6 0x1340 [(3, 0xFFFF)] [(0x40, 0xAB)]) (fun t => (t.getReg 3, t.pc)) = some (0x00AB#16, 0x0008#16) := by decide
theorem test_loadm_not_sign_extended : after (runAt6 0x13FF [] [(0xFF, 0x80)]) (fun t => t.getReg 3) = some 0x0080#16 := by decide
theorem test_loadi_clears_high_byte : after (runAt6 0x2FFF [(15, 0xABCD)] []) (fun t => t.getReg 15) = some 0x00FF#16 := by decide
theorem test_store_low_byte_only :
    after (runAt6 0x3280 [(2, 0x1234)] []) (fun t => (t.readByte 0x80, t.readByte 0x81, t.getReg 2)) = some (0x34#8, 0x00#8, 0x1234#16) := by decide
theorem test_store_zero_removes_cell :
    after (runAt6 0x3280 [(2, 0x0100)] [(0x80, 0x55)]) (fun t => (t.readByte 0x80, Memory.wf t.mem)) = some (0x00#8, true) := by decide
theorem test_move_r_into_s : after (runAt6 0x4120 [(1, 0xBEEF)] []) (fun t => (t.getReg 2, t.getReg 1)) = some (0xBEEF#16, 0xBEEF#16) := by decide
theorem test_move_not_s_into_r : after (runAt6 0x4210 [(1, 0xBEEF)] []) (fun t => (t.getReg 1, t.getReg 2)) = some (0x0000#16, 0x0000#16) := by decide

/-! ### One step each (B3) -/

theorem test_add_loses_carry : after (runAt6 0x5312 [(1, 0xFFFF), (2, 1)] []) (fun t => t.getReg 3) = some 0x0000#16 := by decide
theorem test_add_doubles : after (runAt6 0x5111 [(1, 0xC000)] []) (fun t => t.getReg 1) = some 0x8000#16 := by decide
theorem test_or : after (runAt6 0x7312 [(1, 0x0F0F), (2, 0x00FF)] []) (fun t => t.getReg 3) = some 0x0FFF#16 := by decide
theorem test_and : after (runAt6 0x8312 [(1, 0x0F0F), (2, 0x00FF)] []) (fun t => t.getReg 3) = some 0x000F#16 := by decide
theorem test_xor : after (runAt6 0x9312 [(1, 0x1234), (2, 0xFFFF)] []) (fun t => t.getReg 3) = some 0xEDCB#16 := by decide
theorem test_ror_by_four : after (runAt6 0xA140 [(1, 0x1234)] []) (fun t => t.getReg 1) = some 0x4123#16 := by decide
theorem test_ror_amount_is_s_not_t : after (runAt6 0xA103 [(1, 0x1234)] []) (fun t => t.getReg 1) = some 0x1234#16 := by decide

/-! ### PackedFloat (B4, B5, B6) -/

theorem test_decode_packed : pfDecodeQ 0x25#8 = 208 ∧ pfDecodeQ 0x7F#8 = 491520 ∧ pfDecodeQ 0xA4#8 = -192 ∧ pfDecodeQ 0x80#8 = -8 := by decide
theorem test_encode_packed_real :
    pfEncode .trunc8 (-5 / 2) = some 0xAA#8 ∧ pfEncode .trunc8 (28 / 25) = some 0x20#8 ∧ pfEncode .trunc8 100 = some 0x54#8 := by decide +kernel
theorem test_encode_packed_out_of_range :
    pfEncode .trunc8 4096 = some 0x80#8 ∧ pfEncode .mask4 8191 = some 0x07#8 ∧ pfEncode .trunc8 (1 / 20) = some 0xFC#8 ∧
    pfEncode .mask4 (1 / 20) = some 0x7C#8 ∧ pfEncode .trunc8 (-3 / 100) = some 0xF7#8 := by decide +kernel
theorem test_encode_packed_zero_has_no_result : pfEncode .trunc8 0 = none ∧ pfEncodeQ .trunc8 0 = none := by decide +kernel
theorem test_fadd_example : after (runAt6 0x621C [(1, 0xFF24), (12, 0xFF00)] []) (fun t => t.getReg 2) = some 0x0025#16 := by decide
theorem test_fadd_tiny_sum_wraps : after (runAt6 0x6211 [(1, 0x0080)] []) (fun t => (t.getReg 2, t.draws)) = some (0x00E8#16, 0) := by decide
theorem test_fadd_zero_sum_completes :
    after (runAt6 0x6210 [(1, 0x1280)] []) (fun t => (t.pc, t.runState, t.draws, t.getReg 1)) = some (0x0008#16, .fetching, 1, 0x1280#16) := by decide
theorem test_fadd_mask4_alternative : (State.faddWith .mask4 false 2 1 1 (stateWith 0 [(1, 0x0080)] [])).getReg 2 = 0x0068#16 := by decide
theorem test_fadd_fallthrough_alternative :
    (State.faddWith .trunc8 true 2 1 0xC#4 (stateWith 0 [(1, 0x0024), (12, 0xFF00)] [])).getReg 2 = 0xFF24#16 := by decide

/-! ### Control and endings (B7, B8) -/

theorem test_jump_whole_register : after (runAt6 0xB4FF [(4, 0xFFFF)] []) (fun t => (t.pc, t.runState)) = some (0xFFFF#16, .fetching) := by decide
theorem test_bgtjmp_signed : after (runAt6 0xD140 [(1, 0x7FFF), (0, 0x8000)] []) (fun t => t.pc) = some 0x0040#16 := by decide
theorem test_bgtjmp_strict : after (runAt6 0xD140 [(1, 3), (0, 3)] []) (fun t => t.pc) = some 0x0008#16 := by decide
theorem test_halt : after (runAt6 0xC5A7 [] []) (fun t => (t.runState, t.pc, t.events)) = some (.halted, 0x0008#16, [.haltNotice]) := by decide
theorem test_haltOp0 : after (runAt6 0x0ABC [] []) (fun t => (t.runState, t.pc, t.events)) = some (.halted, 0x0008#16, [.haltNotice]) := by decide
theorem test_haltOpE : after (runAt6 0xEFFF [] []) (fun t => (t.runState, t.pc, t.events)) = some (.halted, 0x0008#16, [.haltNotice]) := by decide
theorem test_haltOpF : after (runAt6 0xF000 [] []) (fun t => (t.runState, t.pc, t.events)) = some (.halted, 0x0008#16, [.haltNotice]) := by decide
theorem test_fault_reports_pc :
    after (step (stateWith 0x0100#16 [] [])) (fun t => (t.runState, t.pc, t.events)) =
      some (.faulted, 0x0100#16, [.faultReport .pcOutOfBounds 0x0100#16]) := by decide
theorem test_fetch_at_last_byte :
    after (step (stateWith 0x00FF#16 [] [(255, 0xC0)])) (fun t => (t.runState, t.pc)) = some (.halted, 0x0101#16) := by decide
theorem test_fetch_at_odd_pc : (stateWith 0x0011#16 [] [(0x11, 0xBC), (0x12, 0x20)]).fetched = 0xBC20#16 := by decide
theorem test_host_ports : (stateWith 0 [(15, 7)] []).regRead 15 = 7#16 ∧ (stateWith 0 [(15, 7)] []).regRead 16 = 0#16 ∧
    (stateWith 0 [(15, 7)] []).regRead (-1) = 0#16 := by decide
theorem test_loader_stream :
    (State.reset.loadWordsAt 0 [0x2001#16, 0x2102#16]).mem = [(0, 0x20), (1, 0x01), (2, 0x21), (3, 0x02)] := by decide

/-! ### Witnesses: the hypotheses of the obligations met together, at boundary values of each clause -/

theorem witness_StepRunsDecodedInstruction :
    (stateWith 255 [] [(255, 0xC0)]).Fetching ∧ (stateWith 255 [] [(255, 0xC0)]).pc.toNat ≤ 255 ∧
    decodeBytes [(stateWith 255 [] [(255, 0xC0)]).readByte 255, (stateWith 255 [] [(255, 0xC0)]).readByte 256] = .ok (.halt, []) := by decide

theorem witness_FaddEncodesExactSum :
    pfDecode (((stateWith 0 [(1, 0xFF24)] []).getReg 1).extractLsb' 0 8) + pfDecode ((0xC#4).setWidth 8) ≠ 0 := by decide +kernel

theorem witness_FaddZeroSumCompletesWithFreeByte :
    ((stateWith 0 [(1, 0x1280)] []).getReg 1).extractLsb' 0 8 = 0x80#8 ||| (0x0#4).setWidth 8 ∧
    ((stateWith 0 [(1, 0x008F)] []).getReg 1).extractLsb' 0 8 = 0x80#8 ||| (0xF#4).setWidth 8 := by decide

theorem witness_FaddTooSmallSumGivesWrappedByte :
    ((pfDecodeQ (((stateWith 0 [(1, 0x0080)] []).getReg 1).extractLsb' 0 8) + pfDecodeQ ((0x1#4).setWidth 8)).natAbs, 0xE8#8) ∈
      [(1, 0xE8#8), (2, 0xF0#8), (3, 0xF4#8), (4, 0xF8#8), (5, 0xFA#8), (6, 0xFC#8), (7, 0xFE#8)] ∧
    ((pfDecodeQ (((stateWith 0 [(1, 0x0087)] []).getReg 1).extractLsb' 0 8) + pfDecodeQ ((0x0#4).setWidth 8)).natAbs, 0xFE#8) ∈
      [(1, 0xE8#8), (2, 0xF0#8), (3, 0xF4#8), (4, 0xF8#8), (5, 0xFA#8), (6, 0xFC#8), (7, 0xFE#8)] := by decide

theorem witness_FaddDependsOnLowByteOnly :
    ((stateWith 0 [(1, 0xFF24)] []).getReg 1).extractLsb' 0 8 = ((stateWith 0 [(1, 0x0024), (12, 5)] []).getReg 1).extractLsb' 0 8 ∧
    (stateWith 0 [(1, 0xFF24)] []).draws = (stateWith 0 [(1, 0x0024), (12, 5)] []).draws ∧
    (∃ t, exec (.fadd 2 1 0xC#4) (stateWith 0 [(1, 0xFF24)] []) = .next t) ∧
    ∃ t, exec (.fadd 2 1 0xC#4) (stateWith 0 [(1, 0x0024), (12, 5)] []) = .next t :=
  ⟨by decide, by decide, ⟨_, rfl⟩, ⟨_, rfl⟩⟩

theorem witness_PfEncodeFieldsInRange :
    ((2 : ℚ) ^ (-4 : ℤ) ≤ |1 / 16| ∧ |1 / 16| < (2 : ℚ) ^ ((-4 : ℤ) + 1) ∧ (-4 : ℤ) ≤ -4 ∧ (-4 : ℤ) ≤ 11) ∧
    ((2 : ℚ) ^ (11 : ℤ) ≤ |-4095| ∧ |-4095| < (2 : ℚ) ^ ((11 : ℤ) + 1) ∧ (-4 : ℤ) ≤ 11 ∧ (11 : ℤ) ≤ 11) := by
  norm_num

theorem witness_PfEncodeErrorBelowOneEighth :
    ((1 : ℚ) / 16 ≤ |1 / 16| ∧ |(1 : ℚ) / 16| < 4096 ∧ (2 : ℚ) ^ (-4 : ℤ) ≤ |1 / 16| ∧ |1 / 16| < (2 : ℚ) ^ ((-4 : ℤ) + 1)) ∧
    ((1 : ℚ) / 16 ≤ |-4095| ∧ |(-4095 : ℚ)| < 4096 ∧ (2 : ℚ) ^ (11 : ℤ) ≤ |-4095| ∧ |-4095| < (2 : ℚ) ^ ((11 : ℤ) + 1)) := by
  norm_num

theorem witness_BgtjmpBranchesOnSignedGreater :
    ((stateWith 0 [(1, 0x8001), (0, 0x8000)] []).getReg 1).toInt > ((stateWith 0 [(1, 0x8001), (0, 0x8000)] []).getReg 0).toInt ∧
    ¬ ((stateWith 0 [(1, 0xFFFF), (0, 0xFFFF)] []).getReg 1).toInt > ((stateWith 0 [(1, 0xFFFF), (0, 0xFFFF)] []).getReg 0).toInt := by
  decide

theorem witness_EveryHaltOpcodeHalts :
    (Instr.haltOpE = .halt ∨ Instr.haltOpE = .haltOp0 ∨ Instr.haltOpE = .haltOpE ∨ Instr.haltOpE = .haltOpF) ∧
    (stateWith 0x0100#16 [] []).faulted = false := by decide

theorem witness_HostPortsAreTolerant :
    ((-1 : Int) < 0 ∨ (15 : Int) < -1) ∧ ((16 : Int) < 0 ∨ (15 : Int) < 16) ∧ (255 : Nat) ≤ 255 ∧ ((256 : Int) < 0 ∨ (255 : Int) < 256) := by decide

theorem witness_RegisterSetThenGet :
    (0 ≤ (15 : Int) ∧ (15 : Int) ≤ 15) ∧ (14 : Int) ≠ 15 ∧ ((16 : Int) < 0 ∨ (15 : Int) < 16) := by decide

theorem witness_LoadedByteReadsBack : (0 ≤ (255 : Int) ∧ (255 : Int) ≤ 255) ∧ (256 : Int) ≠ 255 := by decide

theorem witness_CanonicalMemoryIsItsBytes :
    Memory.wf (stateWith 0 [] [(5, 1), (0, 2), (255, 3)]).mem = true ∧ Memory.wf State.reset.mem = true := by decide

theorem witness_FetchIsBigEndian : (stateWith 254 [] []).pc.toNat ≤ 254 ∧ (stateWith 255 [] []).pc.toNat = 255 := by decide

theorem witness_StoreIsSeenByNextFetch : (0 : Nat) ≤ 255 ∧ (255 : Nat) ≤ 255 := by decide

theorem witness_OutOfBoundsStepFaults :
    (stateWith 0x0100#16 [] []).Fetching ∧ 256 ≤ (stateWith 0x0100#16 [] []).pc.toNat := by decide

theorem witness_TerminalStatesHaveNoStep :
    (stateWith 0x0100#16 [] []).raisePcOutOfBounds.faulted = true ∧ State.reset.haltRun.faulted = false ∧
    State.reset.haltRun.halted = true := by decide

theorem witness_ProgramCounterChangesInThreeWays :
    (∃ t, step (stateWith 255 [(0, 9)] [(255, 0xB0)]) = .next t) ∧ (stateWith 255 [(0, 9)] [(255, 0xB0)]).pc.toNat ≤ 255 ∧
    decodeWord (stateWith 255 [(0, 9)] [(255, 0xB0)]).fetched = .jump 0 ∧
    (∃ t, step (stateWith 0 [(1, 1)] [(0, 0xD1), (1, 0xFF)]) = .next t) ∧
    decodeWord (stateWith 0 [(1, 1)] [(0, 0xD1), (1, 0xFF)]).fetched = .bgtjmp 1 0xFF#8 ∧
    ((stateWith 0 [(1, 1)] [(0, 0xD1), (1, 0xFF)]).getReg 1).toInt > ((stateWith 0 [(1, 1)] [(0, 0xD1), (1, 0xFF)]).getReg 0).toInt ∧
    (∃ t, step (stateWith 254 [] [(254, 0x21)]) = .next t) ∧ decodeWord (stateWith 254 [] [(254, 0x21)]).fetched = .loadi 1 0 :=
  ⟨⟨_, rfl⟩, by decide, by decide, ⟨_, rfl⟩, by decide, by decide, ⟨_, rfl⟩, by decide⟩

theorem witness_LeavingMemoryFaultsNextStep :
    (∃ t, step (stateWith 254 [] [(254, 0x21)]) = .next t ∧ t.Fetching ∧ 256 ≤ t.pc.toNat) ∧
    (stateWith 254 [] [(254, 0x21)]).pc.toNat ≤ 255 ∧
    ∃ t, step (stateWith 0 [(3, 0xFF00)] [(0, 0xB3)]) = .next t ∧ t.Fetching ∧ 256 ≤ t.pc.toNat :=
  ⟨⟨_, rfl, by decide, by decide⟩, by decide, ⟨_, rfl, by decide, by decide⟩⟩

theorem witness_HaltAtTopOfMemoryEndsHalted :
    (stateWith 254 [] [(254, 0xC0)]).Fetching ∧ (stateWith 254 [] [(254, 0xC0)]).pc.toNat = 254 ∧
    IsHalt (decodeWord (stateWith 254 [] [(254, 0xC0)]).fetched) ∧
    (stateWith 255 [] []).Fetching ∧ (stateWith 255 [] []).pc.toNat = 255 ∧ IsHalt (decodeWord (stateWith 255 [] []).fetched) :=
  ⟨by decide, by decide, .inl (by decide), by decide, by decide, .inr (.inl (by decide))⟩

/-- One step for each clause: the fault, a destination register, STORE, JUMP, BGTJMP and HALT. -/
theorem witness_StepChangesAtMostOneThing :
    (∃ t, step (stateWith 0x0100#16 [] []) = .next t) ∧ 256 ≤ (stateWith 0x0100#16 [] []).pc.toNat ∧
    (∃ t, step (stateWith 254 [] [(254, 0x4F), (255, 0x20)]) = .next t) ∧
    destReg (decodeWord (stateWith 254 [] [(254, 0x4F), (255, 0x20)]).fetched) = some 2 ∧
    (∃ t, step (stateWith 0 [] [(0, 0x32), (1, 0xFF)]) = .next t) ∧
    decodeWord (stateWith 0 [] [(0, 0x32), (1, 0xFF)]).fetched = .store 2 0xFF ∧
    (∃ t, step (stateWith 255 [] [(255, 0xB4)]) = .next t) ∧ decodeWord (stateWith 255 [] [(255, 0xB4)]).fetched = .jump 4 ∧
    (∃ t, step (stateWith 0 [] [(0, 0xD1), (1, 0x40)]) = .next t) ∧
    decodeWord (stateWith 0 [] [(0, 0xD1), (1, 0x40)]).fetched = .bgtjmp 1 0x40 ∧
    (∃ t, step (stateWith 255 [] []) = .next t) ∧ decodeWord (stateWith 255 [] []).fetched = .haltOp0 :=
  ⟨⟨_, rfl⟩, by decide, ⟨_, rfl⟩, by decide, ⟨_, rfl⟩, by decide, ⟨_, rfl⟩, by decide, ⟨_, rfl⟩, by decide, ⟨_, rfl⟩, by decide⟩

theorem witness_OnlyStoreChangesMemory :
    ∃ t, step (stateWith 0 [(2, 0x12C0)] [(0, 0x32), (1, 0xFF)]) = .next t ∧
      t.readByte 255 ≠ (stateWith 0 [(2, 0x12C0)] [(0, 0x32), (1, 0xFF)]).readByte 255 :=
  ⟨_, rfl, by decide⟩

theorem witness_RegisterWritersAreTheNine :
    ∃ t, step (stateWith 0 [] [(0, 0x2F), (1, 0xFF)]) = .next t ∧
      t.getReg 15 ≠ (stateWith 0 [] [(0, 0x2F), (1, 0xFF)]).getReg 15 :=
  ⟨_, rfl, by decide⟩

/-- Also the witness of the statements whose one hypothesis is a step with a next state. -/
theorem witness_EveryStepKeepsCoreInvariant :
    State.reset.Inv ∧ (∃ t, step State.reset = .next t) ∧
    (stateWith 0xFFFF#16 [] []).Inv ∧ ∃ t, step (stateWith 0xFFFF#16 [] []) = .next t :=
  ⟨by decide, ⟨_, rfl⟩, by decide, ⟨_, rfl⟩⟩

theorem witness_FreeByteMattersToZeroSumFaddOnly :
    (∃ t, step (stateWith 0 [] [(0, 0x62), (1, 0x1C)]) = .next t) ∧
    decodeWord (stateWith 0 [] [(0, 0x62), (1, 0x1C)]).fetched = .fadd 2 1 0xC#4 ∧
    pfDecode (((stateWith 0 [] [(0, 0x62), (1, 0x1C)]).getReg 1).extractLsb' 0 8) + pfDecode ((0xC#4).setWidth 8) ≠ 0 :=
  ⟨⟨_, rfl⟩, by decide, by decide +kernel⟩

theorem witness_UnloadedMemoryHalts :
    (stateWith 254 [] []).Fetching ∧ (stateWith 254 [] []).pc.toNat ≤ 254 ∧ (stateWith 254 [] []).readByte 254 = 0x00#8 ∧
    (stateWith 254 [] []).readByte 255 = 0x00#8 := by decide

theorem witness_LoadIsForTheLoadPhaseOnly : Session.fresh.phase = .load ∧ Session.fresh.hostRun.phase ≠ .load := by decide

theorem witness_LoaderPlacesImageWords :
    Session.fresh.phase = .load ∧ 0 < [0x2001#16].length ∧ 0 < 128 ∧ 2 * [0x2001#16].length ≤ 2 := by decide

theorem witness_RunEventChangesNoCoreState : Session.fresh.phase = .load ∧ Session.fresh.hostRun.phase ≠ .load := by decide

theorem witness_EndedRunIsFrozenWithOneEvent :
    Session.Inv { core := State.reset.haltRun, started := true } ∧
    Session.phase { core := State.reset.haltRun, started := true } = .ended ∧
    Session.Inv { core := (stateWith 0x0100#16 [] []).raisePcOutOfBounds, started := true } ∧
    Session.phase { core := (stateWith 0x0100#16 [] []).raisePcOutOfBounds, started := true } = .ended := by decide

theorem witness_EveryMoveKeepsSessionInvariant :
    Session.fresh.Inv ∧ (∃ q, Session.fresh.hostLoad 255 0xC0#8 = .next q) ∧
    (∃ q, Session.fresh.hostLoadImage [0x2001#16] = .next q) ∧ ∃ q, Session.fresh.hostRun.tick = .next q :=
  ⟨by decide, ⟨_, rfl⟩, ⟨_, rfl⟩, ⟨_, rfl⟩⟩

end Sys2Proof.Tests
end

/-! ## Proofs of the family `10_state.md`

The rules first: the fields after the two compound state operations, the host's register ports, and what one executed
instruction can do to the state (`ExecEffect`). Then the statements, each from these rules. -/

namespace Sys2Proof.Machine

section Fields

variable (s : State)

/-! ### The fields after a HALT and after the fault -/

@[simp] theorem State.haltRun_pc : s.haltRun.pc = s.pc := rfl
@[simp] theorem State.haltRun_halted : s.haltRun.halted = true := rfl
@[simp] theorem State.haltRun_faulted : s.haltRun.faulted = s.faulted := rfl
@[simp] theorem State.haltRun_mem : s.haltRun.mem = s.mem := rfl
@[simp] theorem State.haltRun_events : s.haltRun.events = s.events ++ [.haltNotice] := rfl
@[simp] theorem State.haltRun_draws : s.haltRun.draws = s.draws := rfl

@[simp] theorem State.raisePcOutOfBounds_pc : s.raisePcOutOfBounds.pc = s.pc := rfl
@[simp] theorem State.raisePcOutOfBounds_halted : s.raisePcOutOfBounds.halted = s.halted := rfl
@[simp] theorem State.raisePcOutOfBounds_faulted : s.raisePcOutOfBounds.faulted = true := rfl
@[simp] theorem State.raisePcOutOfBounds_mem : s.raisePcOutOfBounds.mem = s.mem := rfl
@[simp] theorem State.raisePcOutOfBounds_events :
    s.raisePcOutOfBounds.events = s.events ++ [.faultReport .pcOutOfBounds s.pc] := rfl
@[simp] theorem State.raisePcOutOfBounds_draws : s.raisePcOutOfBounds.draws = s.draws := rfl
@[simp] theorem State.getReg_raisePcOutOfBounds (i : RegIdx) : s.raisePcOutOfBounds.getReg i = s.getReg i := rfl
@[simp] theorem State.readByte_raisePcOutOfBounds (a : Nat) : s.raisePcOutOfBounds.readByte a = s.readByte a := rfl

end Fields

/-! ### The host's ports -/

section Ports

variable (s : State)

/-- In range, the port index and the 4-bit index it stands for determine each other (10_state.md R22). -/
theorem ofInt_regIdx_inj {i j : Int} (hi : 0 ≤ i ∧ i < 16) (hj : 0 ≤ j ∧ j < 16) :
    (BitVec.ofInt 4 i : RegIdx) = BitVec.ofInt 4 j ↔ i = j := by
  rw [← BitVec.toNat_inj, BitVec.toNat_ofInt, BitVec.toNat_ofInt]
  omega

theorem State.regRead_in_range {i : Int} (h : 0 ≤ i ∧ i < 16) : s.regRead i = s.getReg (BitVec.ofInt 4 i) := if_pos h

theorem State.regRead_out_of_range {i : Int} (h : i < 0 ∨ 15 < i) : s.regRead i = 0x0000#16 := if_neg (by omega)

theorem State.regWrite_in_range {i : Int} (h : 0 ≤ i ∧ i < 16) (v : Word) :
    s.regWrite i v = s.setReg (BitVec.ofInt 4 i) v := if_pos h

theorem State.regWrite_out_of_range {i : Int} (h : i < 0 ∨ 15 < i) (v : Word) : s.regWrite i v = s := if_neg (by omega)

/-- The register port at a 4-bit index is the register (R22, R36). -/
theorem State.regRead_regIdx (i : RegIdx) : s.regRead (i.toNat : Int) = s.getReg i := by
  rw [s.regRead_in_range (by omega), BitVec.ofInt_natCast, BitVec.ofNat_toNat, BitVec.setWidth_eq]

/-- Set then get through the ports, at any two indices (R22, R23). -/
theorem State.regRead_regWrite (i j : Int) (v : Word) :
    (s.regWrite i v).regRead j = if j = i ∧ 0 ≤ i ∧ i < 16 then v else s.regRead j := by
  by_cases hi : 0 ≤ i ∧ i < 16
  · rw [s.regWrite_in_range hi]
    by_cases hj : 0 ≤ j ∧ j < 16
    · simp [State.regRead_in_range _ hj, State.getReg_setReg, ofInt_regIdx_inj hj hi, hi]
    · have hji : j ≠ i := fun h => hj (h ▸ hi)
      simp [State.regRead_out_of_range _ (show j < 0 ∨ 15 < j by omega), hji]
  · rw [s.regWrite_out_of_range (by omega), if_neg fun h => hi h.2]

/-- A register write leaves the control state and the events alone, in range or not (R22). -/
theorem State.regWrite_sameControl (i : Int) (v : Word) : SameControl s (s.regWrite i v) := by
  unfold State.regWrite
  split <;> exact ⟨rfl, rfl, rfl, rfl⟩

/-- A register write leaves every byte alone, in range or not (R22). -/
theorem State.regWrite_sameMemory (i : Int) (v : Word) : SameMemory s (s.regWrite i v) := by
  unfold State.regWrite
  split <;> exact fun _ => rfl

/-- The memory port at a natural address is the tolerant byte read (R36, R50). -/
theorem State.memRead_natCast (a : Nat) : s.memRead (a : Int) = s.readByte a := if_pos (Int.natCast_nonneg a)

/-- The memory port out of range answers 0 (R36). -/
theorem State.memRead_out_of_range {a : Int} (h : a < 0 ∨ 255 < a) : s.memRead a = 0x00#8 := by
  unfold State.memRead
  split
  · exact Memory.read_out_of_range s.mem a.toNat (show 256 ≤ a.toNat by omega)
  · rfl

/-- A byte write outside memory is no write (20_memory.md R51). -/
theorem State.writeByte_out_of_range {a : Nat} (h : Config.memSize ≤ a) (v : Byte) : s.writeByte a v = s := by
  simp [State.writeByte, State.withMem, Memory.write, Nat.not_lt.mpr h]

/-- The loader's write out of range does nothing (R36). -/
theorem State.load_out_of_range {a : Int} (h : a < 0 ∨ 255 < a) (b : Byte) : s.load a b = s := by
  unfold State.load
  split
  · exact s.writeByte_out_of_range (show 256 ≤ a.toNat by omega) b
  · rfl

end Ports

/-! ### What one instruction does -/

/-- What executing `i` in `s` can lead to, by the one part of the state it changes (40_fetch_decode.md R116). The value
an instruction puts into its destination register is left open: each instruction has a meaning of its own for it. -/
inductive ExecEffect (s : State) : Instr → State → Prop where
  /-- An instruction with a destination register writes that register. -/
  | writesReg {i : Instr} {d : RegIdx} {v : Word} (dest : destReg i = some d) : ExecEffect s i (s.setReg d v)
  /-- FADD with a zero sum writes its destination and draws a free byte (43_packed_float.md R160). -/
  | drawsFreeByte {r a : RegIdx} {k : Nibble} {v : Word} (zeroSum : faddSum (s.getReg a) k = 0) :
      ExecEffect s (.fadd r a k) ((s.setReg r v).advanceDraws)
  /-- STORE writes the byte at its address (41_data_transfer.md R132). -/
  | storesByte {r : RegIdx} {xy : Byte} : ExecEffect s (.store r xy) (s.writeByte xy.toNat (lowByte (s.getReg r)))
  /-- JUMP sets `pc` (44_control.md R171). -/
  | jumps {r : RegIdx} : ExecEffect s (.jump r) (s.setPc (s.getReg r))
  /-- BGTJMP with its condition true sets `pc` (R172). -/
  | branches {r : RegIdx} {xy : Byte} (greater : signedGreater (s.getReg r) (s.getReg 0x0#4) = true) :
      ExecEffect s (.bgtjmp r xy) (s.setPc (immediateTarget xy))
  /-- BGTJMP with its condition false changes nothing (R172). -/
  | fallsThrough {r : RegIdx} {xy : Byte} (notGreater : signedGreater (s.getReg r) (s.getReg 0x0#4) = false) :
      ExecEffect s (.bgtjmp r xy) s
  /-- Every HALT ends the run (R173). -/
  | halts {i : Instr} (isHalt : IsHalt i) : ExecEffect s i s.haltRun

/-- FADD at the spec's defaults is its own action alone, with no fall-through (R114, R158). -/
theorem exec_fadd (r a : RegIdx) (k : Nibble) (s : State) :
    exec (.fadd r a k) s = .next (s.faddWrite Config.pfWrap r a k) := rfl

theorem exec_bgtjmp (r : RegIdx) (xy : Byte) (s : State) :
    exec (.bgtjmp r xy) s =
      .next (if signedGreater (s.getReg r) (s.getReg 0x0#4) then s.setPc (immediateTarget xy) else s) := rfl

/-- Every instruction completes in every state, with one of the listed effects. -/
theorem exec_completes_with_effect (i : Instr) (s : State) : ∃ t, exec i s = .next t ∧ ExecEffect s i t := by
  cases i with
  | loadm r xy => exact ⟨_, rfl, .writesReg rfl⟩
  | loadi r xy => exact ⟨_, rfl, .writesReg rfl⟩
  | store r xy => exact ⟨_, rfl, .storesByte⟩
  | move r d => exact ⟨_, rfl, .writesReg rfl⟩
  | add r a b => exact ⟨_, rfl, .writesReg rfl⟩
  | fadd r a k =>
    refine ⟨_, exec_fadd r a k s, ?_⟩
    obtain ⟨b, -, hb⟩ | ⟨hz, hw⟩ := State.faddWrite_cases Config.pfWrap r a k s
    · exact hb ▸ .writesReg rfl
    · exact hw ▸ .drawsFreeByte hz
  | or r a b => exact ⟨_, rfl, .writesReg rfl⟩
  | and r a b => exact ⟨_, rfl, .writesReg rfl⟩
  | xor r a b => exact ⟨_, rfl, .writesReg rfl⟩
  | ror r n => exact ⟨_, rfl, .writesReg rfl⟩
  | jump r => exact ⟨_, rfl, .jumps⟩
  | halt => exact ⟨_, rfl, .halts (.inl rfl)⟩
  | bgtjmp r xy =>
    refine ⟨_, exec_bgtjmp r xy s, ?_⟩
    split
    case isTrue hg => exact .branches hg
    case isFalse hg => exact .fallsThrough (Bool.eq_false_iff.mpr hg)
  | haltOp0 => exact ⟨_, rfl, .halts (.inr (.inl rfl))⟩
  | haltOpE => exact ⟨_, rfl, .halts (.inr (.inr (.inl rfl)))⟩
  | haltOpF => exact ⟨_, rfl, .halts (.inr (.inr (.inr rfl)))⟩

/-- The inversion of `exec`: a next state is one of the listed effects. -/
theorem exec_effect {i : Instr} {s t : State} (h : exec i s = .next t) : ExecEffect s i t := by
  obtain ⟨u, hu, effect⟩ := exec_completes_with_effect i s
  obtain rfl : u = t := by simpa [hu] using h
  exact effect

/-- The inversion of `step`, down to the effect of the decoded instruction (40_fetch_decode.md R110 to R116). -/
theorem step_effect {s t : State} (h : step s = .next t) :
    s.Fetching ∧ ((256 ≤ s.pc.toNat ∧ t = s.raisePcOutOfBounds) ∨
      (s.pc.toNat ≤ 255 ∧ ExecEffect s.advancePc (decodeWord s.fetched) t)) := by
  obtain ⟨hh, hf, ⟨hp, ht⟩ | ⟨hp, he⟩⟩ := step_next_cases h
  · exact ⟨⟨hh, hf⟩, .inl ⟨hp, ht⟩⟩
  · exact ⟨⟨hh, hf⟩, .inr ⟨by omega, exec_effect he⟩⟩

/-- A HALT has no destination register. -/
theorem not_isHalt_of_destReg {i : Instr} {d : RegIdx} (h : destReg i = some d) : ¬ IsHalt i := by
  rintro (rfl | rfl | rfl | rfl) <;> simp [destReg] at h

/-- The nine instructions with a destination register, and the field that names it (10_state.md R24). -/
theorem destReg_eq_some_iff (i : Instr) (d : RegIdx) :
    destReg i = some d ↔
      (∃ xy, i = .loadm d xy) ∨ (∃ xy, i = .loadi d xy) ∨ (∃ r, i = .move r d) ∨ (∃ a b, i = .add d a b) ∨
      (∃ a n, i = .fadd d a n) ∨ (∃ a b, i = .or d a b) ∨ (∃ a b, i = .and d a b) ∨ (∃ a b, i = .xor d a b) ∨
      (∃ n, i = .ror d n) := by
  cases i <;> simp [destReg]

section Effect

variable {s t : State} {i : Instr}

/-- A byte that an instruction changes is the one its STORE addresses (10_state.md R32). -/
theorem ExecEffect.store_of_readByte_ne (effect : ExecEffect s i t) {a : Nat} (ne : t.readByte a ≠ s.readByte a) :
    ∃ r xy, i = .store r xy ∧ xy.toNat = a := by
  cases effect with
  | @storesByte r xy =>
    refine ⟨r, xy, rfl, ?_⟩
    by_contra hne
    exact ne (by rw [State.readByte_writeByte, if_neg fun h => hne h.1.symm])
  | writesReg | drawsFreeByte | jumps | branches | fallsThrough | halts => simp at ne

/-- A register that an instruction changes is its destination register (10_state.md R24). -/
theorem ExecEffect.destReg_of_getReg_ne (effect : ExecEffect s i t) {d : RegIdx} (ne : t.getReg d ≠ s.getReg d) :
    destReg i = some d := by
  have only_written {r : RegIdx} {v : Word} (ne : (s.setReg r v).getReg d ≠ s.getReg d) : r = d := by
    by_contra hne
    exact ne (by rw [State.getReg_setReg, if_neg (Ne.symm hne)])
  cases effect with
  | writesReg dest => exact only_written ne ▸ dest
  | drawsFreeByte => exact congrArg some (only_written ne)
  | storesByte | jumps | branches | fallsThrough | halts => simp at ne

/-- An instruction sets `halted` if it is a HALT, and otherwise keeps it (10_state.md R27). -/
theorem ExecEffect.halted_iff (effect : ExecEffect s i t) : t.halted = true ↔ s.halted = true ∨ IsHalt i := by
  cases effect with
  | writesReg dest => simp [not_isHalt_of_destReg dest]
  | halts isHalt => simp [isHalt]
  | drawsFreeByte | storesByte | jumps | branches | fallsThrough => simp [IsHalt]

/-- No instruction touches `faulted` (10_state.md R28). -/
theorem ExecEffect.faulted_eq (effect : ExecEffect s i t) : t.faulted = s.faulted := by
  cases effect <;> rfl

/-- An instruction that is no HALT keeps `halted` and emits no event (44_control.md R173, R174). -/
theorem ExecEffect.haltRun_or_silent (effect : ExecEffect s i t) :
    (IsHalt i ∧ t = s.haltRun) ∨ (t.halted = s.halted ∧ t.events = s.events) := by
  cases effect with
  | halts isHalt => exact .inl ⟨isHalt, rfl⟩
  | writesReg | drawsFreeByte | storesByte | jumps | branches | fallsThrough => exact .inr ⟨rfl, rfl⟩

/-- Every instruction keeps the canonical form of memory. -/
theorem ExecEffect.wf (effect : ExecEffect s i t) (wf : Memory.wf s.mem = true) : Memory.wf t.mem = true := by
  cases effect with
  | storesByte => exact s.writeByte_wf _ _ wf
  | writesReg | drawsFreeByte | jumps | branches | fallsThrough | halts => exact wf

end Effect

/-! ### The invariant of the core -/

section Invariant

variable {s t : State}

/-- In Fetching no event is owed (40_fetch_decode.md R118), so the invariant is canonical memory and no event. -/
theorem State.inv_iff_of_fetching (h : s.Fetching) : s.Inv ↔ Memory.wf s.mem = true ∧ s.events = [] := by
  simp [State.Inv, State.owedEvents, s.runState_fetching.mpr h, h.1, h.2]

/-- A HALT in Fetching keeps the invariant: its notice is the one event then owed (R118). -/
theorem State.haltRun_inv (h : s.Fetching) (inv : s.Inv) : s.haltRun.Inv := by
  obtain ⟨wf, none_yet⟩ := (State.inv_iff_of_fetching h).mp inv
  have ended : s.haltRun.runState = .halted := s.haltRun.runState_halted.mpr ⟨rfl, h.2⟩
  simp [State.Inv, State.owedEvents, ended, wf, none_yet, h.2]

/-- The fault keeps the invariant: its report is the one event then owed (R118, 60_exceptions.md R182). -/
theorem State.raisePcOutOfBounds_inv (h : s.Fetching) (inv : s.Inv) (out : 256 ≤ s.pc.toNat) :
    s.raisePcOutOfBounds.Inv := by
  obtain ⟨wf, none_yet⟩ := (State.inv_iff_of_fetching h).mp inv
  have ended : s.raisePcOutOfBounds.runState = .faulted := s.raisePcOutOfBounds.runState_faulted.mpr rfl
  simp [State.Inv, State.owedEvents, ended, wf, none_yet, h.1, out]

/-- An instruction executed in Fetching keeps the invariant. -/
theorem ExecEffect.inv {i : Instr} (effect : ExecEffect s i t) (h : s.Fetching) (inv : s.Inv) : t.Inv := by
  obtain ⟨-, rfl⟩ | ⟨halted_eq, events_eq⟩ := effect.haltRun_or_silent
  · exact State.haltRun_inv h inv
  · obtain ⟨wf, none_yet⟩ := (State.inv_iff_of_fetching h).mp inv
    have still_fetching : t.Fetching := ⟨halted_eq.trans h.1, effect.faulted_eq.trans h.2⟩
    exact (State.inv_iff_of_fetching still_fetching).mpr ⟨effect.wf wf, events_eq.trans none_yet⟩

/-- The advance of `pc` in Fetching keeps the invariant. -/
theorem State.advancePc_inv (h : s.Fetching) (inv : s.Inv) : s.advancePc.Inv :=
  (State.inv_iff_of_fetching (s := s.advancePc) h).mpr ((State.inv_iff_of_fetching h).mp inv)

end Invariant

/-! ### The statements -/

/-- Settles O48: a step starts in Fetching, where the fault and every instruction keep the invariant. -/
theorem everyStepKeepsCoreInvariant : Obligations.EveryStepKeepsCoreInvariant := by
  intro s t inv h
  obtain ⟨fetching, ⟨out, rfl⟩ | ⟨-, effect⟩⟩ := step_effect h
  · exact State.raisePcOutOfBounds_inv fetching inv out
  · exact effect.inv fetching (State.advancePc_inv fetching inv)

/-- Settles O29, from set then get at any two port indices. -/
theorem registerSetThenGet : Obligations.RegisterSetThenGet := by
  intro s i v
  refine ⟨fun h0 h15 => ?same, fun j hj => ?other, fun h => s.regWrite_out_of_range h v,
    s.regWrite_sameControl i v, s.regWrite_sameMemory i v⟩
  case same => rw [State.regRead_regWrite, if_pos ⟨rfl, h0, by omega⟩]
  case other => rw [State.regRead_regWrite, if_neg fun h => hj h.1]

/-- Settles O42: the fault writes no byte, and of the instructions only STORE does. -/
theorem onlyStoreChangesMemory : Obligations.OnlyStoreChangesMemory := by
  intro s t a h ne
  obtain ⟨-, ⟨-, rfl⟩ | ⟨-, effect⟩⟩ := step_effect h
  · exact absurd rfl ne
  · exact effect.store_of_readByte_ne ne

/-- Settles O43: a changed register is the destination of the decoded instruction. -/
theorem registerWritersAreTheNine : Obligations.RegisterWritersAreTheNine := by
  intro s t d h ne
  obtain ⟨-, ⟨-, rfl⟩ | ⟨-, effect⟩⟩ := step_effect h
  · exact absurd rfl ne
  · exact (destReg_eq_some_iff _ d).mp (effect.destReg_of_getReg_ne ne)

/-- Settles O44: both flags are false before a step; the fault sets one, a HALT the other. -/
theorem runFlagsSetOnlyByHaltAndFault : Obligations.RunFlagsSetOnlyByHaltAndFault := by
  intro s t h
  obtain ⟨⟨not_halted, not_faulted⟩, ⟨out, rfl⟩ | ⟨inside, effect⟩⟩ := step_effect h
  · have not_inside : ¬ s.pc.toNat ≤ 255 := by omega
    simp [not_halted, not_inside, out]
  · have not_out : ¬ 256 ≤ s.pc.toNat := by omega
    rw [effect.halted_iff, effect.faulted_eq]
    simp [not_halted, not_faulted, inside, not_out]

/-- Settles O28, port by port. -/
theorem hostPortsAreTolerant : Obligations.HostPortsAreTolerant := fun s =>
  ⟨s.regRead_regIdx, fun _ h => s.regRead_out_of_range h, fun a _ => s.memRead_natCast a,
    fun _ h => s.memRead_out_of_range h, fun _ b h => s.load_out_of_range h b⟩

/-- Settles O47: the reset state is in Fetching, its memory canonical and no event emitted. -/
theorem resetMeetsCoreInvariant : Obligations.ResetMeetsCoreInvariant :=
  (State.inv_iff_of_fetching ⟨rfl, rfl⟩).mpr ⟨State.reset_wf, rfl⟩

/-- Settles O49, field by field. -/
theorem resetLeavesEverythingZero : Obligations.ResetLeavesEverythingZero :=
  ⟨State.getReg_reset, rfl, rfl, rfl, State.readByte_reset, State.reset.runState_fetching.mpr ⟨rfl, rfl⟩⟩

/-- Settles O50: two zero bytes make the word 0x0000, which decodes to the implicit HALT of opcode 0x0 (R90). -/
theorem unloadedMemoryHalts : Obligations.UnloadedMemoryHalts := by
  intro s ⟨not_halted, not_faulted⟩ hp hi_zero lo_zero
  have decoded : decodeWord s.fetched = .haltOp0 := by
    rw [s.fetched_eq, hi_zero, lo_zero]
    rfl
  rw [step_fetching s not_halted not_faulted (by omega), decoded]
  rfl

end Sys2Proof.Machine

/-! ## Proofs of the family `20_memory.md`

The rules first: the two bytes of a fetched word, read after write through the host's memory ports, and read after write
at an immediate address. Then the statements, each from these rules. -/

namespace Sys2Proof.Machine

/-! ### The two bytes of a fetched word -/

section FetchedWord

variable (hi lo : Byte)

/-- The byte at the lower address is the high byte of the word (20_memory.md R52). -/
theorem highByte_wordOfBytes : (wordOfBytes hi lo).extractLsb' 8 8 = hi := BitVec.extractLsb'_append_eq_left

/-- The byte at the higher address is the low byte of the word (R52). -/
theorem lowByte_wordOfBytes : (wordOfBytes hi lo).extractLsb' 0 8 = lo := BitVec.extractLsb'_append_eq_right

/-- The value of a word in its two bytes (R52). -/
theorem toNat_wordOfBytes : (wordOfBytes hi lo).toNat = 256 * hi.toNat + lo.toNat := by
  calc (hi ++ lo).toNat
    _ = hi.toNat <<< 8 ||| lo.toNat := BitVec.toNat_append hi lo
    _ = hi.toNat <<< 8 + lo.toNat := (Nat.shiftLeft_add_eq_or_of_lt lo.isLt _).symm
    _ = 256 * hi.toNat + lo.toNat := by rw [Nat.shiftLeft_eq]; omega

end FetchedWord

section MemoryPorts

variable (s : State)

/-- The two-byte read in any state is the two tolerant byte reads, high byte first (R52). -/
theorem State.fetchWord_mem (a : Nat) :
    Memory.fetchWord s.mem a = wordOfBytes (s.readByte a) (s.readByte (a + 1)) := rfl

/-- An address outside memory reads 0x00 through the state (R50). -/
theorem State.readByte_out_of_range {a : Nat} (h : Config.memSize ≤ a) : s.readByte a = 0x00#8 :=
  Memory.read_out_of_range s.mem a h

/-! ### Read after write -/

/-- An immediate is always an address in range, so a write there is always read back (R51, R53). -/
theorem State.readByte_writeByte_immediate (xy v : Byte) (a : Nat) :
    (s.writeByte xy.toNat v).readByte a = if a = xy.toNat then v else s.readByte a := by
  have in_range : xy.toNat < Config.memSize := xy.isLt
  simp [State.readByte_writeByte, in_range]

theorem State.load_of_nonneg {a : Int} (h : 0 ≤ a) (b : Byte) : s.load a b = s.writeByte a.toNat b := if_pos h

theorem State.memRead_of_nonneg {a : Int} (h : 0 ≤ a) : s.memRead a = s.readByte a.toNat := if_pos h

/-- Load then read through the ports, at any two addresses (R50, R51, R59). -/
theorem State.memRead_load (a c : Int) (b : Byte) :
    (s.load a b).memRead c = if c = a ∧ 0 ≤ a ∧ a ≤ 255 then b else s.memRead c := by
  by_cases ha : 0 ≤ a ∧ a ≤ 255
  case neg => rw [s.load_out_of_range (by omega), if_neg fun h => ha h.2]
  case pos =>
    by_cases hc : 0 ≤ c
    · have in_range : a.toNat < 256 := by omega
      have same_address : c.toNat = a.toNat ↔ c = a := by omega
      rw [s.load_of_nonneg ha.1, State.memRead_of_nonneg _ hc, s.memRead_of_nonneg hc, State.readByte_writeByte]
      simp [in_range, same_address, ha]
    · have ne : c ≠ a := by omega
      simp [State.memRead_out_of_range _ (show c < 0 ∨ 255 < c by omega), ne]

/-- The loader's write leaves every register alone, in range or not (R51). -/
theorem State.load_sameRegs (a : Int) (b : Byte) : SameRegs s (s.load a b) := by
  unfold State.load
  split <;> exact fun _ => rfl

/-- The loader's write leaves the control state and the events alone, in range or not (R51). -/
theorem State.load_sameControl (a : Int) (b : Byte) : SameControl s (s.load a b) := by
  unfold State.load
  split <;> exact ⟨rfl, rfl, rfl, rfl⟩

end MemoryPorts

/-- STORE writes the low byte of its register at its immediate address (41_data_transfer.md R132). -/
theorem exec_store (r : RegIdx) (xy : Byte) (s : State) :
    exec (.store r xy) s = .next (s.writeByte xy.toNat (lowByte (s.getReg r))) := rfl

/-! ### The statements -/

/-- Settles O30, from load then read at any two addresses. -/
theorem loadedByteReadsBack : Obligations.LoadedByteReadsBack := by
  intro s a b
  refine ⟨fun h0 h255 => ?same, fun c hc => ?other, s.load_sameRegs a b, s.load_sameControl a b⟩
  case same => rw [State.memRead_load, if_pos ⟨rfl, h0, h255⟩]
  case other => rw [State.memRead_load, if_neg fun h => hc h.1]

/-- Settles O33: the two bytes of the word at `a` are the bytes at `a` and `a + 1`, each read after the write at XY. -/
theorem storeIsSeenByNextFetch : Obligations.StoreIsSeenByNextFetch := by
  intro r xy s
  refine ⟨_, exec_store r xy s, fun a _ => ?_⟩
  rw [State.fetchWord_mem, highByte_wordOfBytes, lowByte_wordOfBytes]
  exact ⟨s.readByte_writeByte_immediate xy _ a, s.readByte_writeByte_immediate xy _ (a + 1)⟩

/-- Settles O32: the fetched word is its two bytes, and at 255 the second lies outside memory. -/
theorem fetchIsBigEndian : Obligations.FetchIsBigEndian := by
  intro s
  have value : s.fetched.toNat = 256 * (s.readByte s.pc.toNat).toNat + (s.readByte (s.pc.toNat + 1)).toNat := by
    rw [s.fetched_eq, toNat_wordOfBytes]
  refine ⟨fun _ => value, fun top => ?_⟩
  have low_byte_zero : s.readByte (255 + 1) = 0x00#8 := s.readByte_out_of_range (Nat.le_refl 256)
  rw [value, top, low_byte_zero]
  rfl

end Sys2Proof.Machine

/-! ## Proofs of the family `30_encoding.md`

The rules first: the decoder on a word given by its four fields, the canonical word given by its four fields, and the
loader's image byte by byte. Then the statements, each from these rules. -/

namespace Sys2Proof

/-! ### The decoder on a word given by its fields -/

/-- The decoder sees a word as its four fields (30_encoding.md R81, R85). -/
theorem decodeWord_pack (op r s t : Nibble) : decodeWord (packFields op r s t) = decodeFields op r s t := by
  rw [decodeWord, opField_pack, rField_pack, sField_pack, tField_pack]

/-- The opcode map gives each opcode its own instruction (R86). -/
theorem opcode_decodeFields (op r s t : Nibble) : (decodeFields op r s t).opcode = op := by
  fun_cases decodeFields op r s t
  case case16 =>
    have only_F_left : op = 0xF#4 := by decide +revert
    exact only_F_left.symm
  all_goals rfl

/-- An immediate made of the fields s and t is encoded as these fields (R84). -/
theorem packFields_immediate (op r s t : Nibble) :
    packFields op r (immediateHigh (immediate s t)) (immediateLow (immediate s t)) = packFields op r s t := by
  rw [(nibbles_immediate s t).1, (nibbles_immediate s t).2]

/-- Decoding undoes encoding: the packed fields of an instruction are the ones its row of the opcode map reads (R85,
R98). -/
theorem decodeWord_encode (i : Instr) : decodeWord (encode i) = i := by
  cases i with
  | loadm r xy | loadi r xy | store r xy | bgtjmp r xy =>
    rw [encode, decodeWord_pack, Instr.opcode, decodeFields, immediate_nibbles]
  | move | add | fadd | or | and | xor | ror | jump | halt | haltOp0 | haltOpE | haltOpF =>
    rw [encode, decodeWord_pack]; rfl

/-- The two bytes of a word, high byte first, decode to what the word decodes to, with nothing left over (R80). -/
theorem decodeBytes_bytesOfWord (w : Word) : decodeBytes (bytesOfWord w) = .ok (decodeWord w, []) := by
  rw [bytesOfWord, decodeBytes, wordOfBytes_bytes]

/-- Every instruction is well formed (R82). -/
theorem Instr.wf_eq_true (i : Instr) : i.wf = true := by
  cases i <;> rfl

/-! ### The canonical word given by its fields -/

/-- Packed words combine field by field. -/
theorem packFields_and (op r s t op' r' s' t' : Nibble) :
    packFields op r s t &&& packFields op' r' s' t' =
      packFields (op &&& op') (r &&& r') (s &&& s') (t &&& t') :=
  BitVec.and_append.trans <| congrArg (· ++ (t &&& t')) <|
    BitVec.and_append.trans <| congrArg (· ++ (s &&& s')) BitVec.and_append

/-- A nibble masked with 0xF keeps every bit. -/
theorem nibble_kept (x : Nibble) : x &&& 0xF#4 = x := BitVec.and_allOnes

section Canonical

variable {op r s t : Nibble}

/-- The canonical word keeps the opcode, and of each other field the bits its opcode does not ignore (R87, R98). -/
theorem canonicalWord_pack {keepR keepS keepT : Nibble}
    (keep : ~~~ ignoredMask op = packFields 0xF#4 keepR keepS keepT) :
    canonicalWord (packFields op r s t) = packFields op (r &&& keepR) (s &&& keepS) (t &&& keepT) := by
  have opcode : (packFields op r s t).extractLsb' 12 4 = op := opField_pack op r s t
  rw [canonicalWord, opcode, keep, packFields_and, nibble_kept]

theorem canonicalWord_pack_of_none_ignored (h : ignoredMask op = 0x0000#16) :
    canonicalWord (packFields op r s t) = packFields op r s t := by
  have keep : ~~~ ignoredMask op = packFields 0xF#4 0xF#4 0xF#4 0xF#4 := by rw [h]; rfl
  rw [canonicalWord_pack keep, nibble_kept, nibble_kept, nibble_kept]

theorem canonicalWord_pack_of_t_ignored (h : ignoredMask op = 0x000F#16) :
    canonicalWord (packFields op r s t) = packFields op r s 0x0#4 := by
  have keep : ~~~ ignoredMask op = packFields 0xF#4 0xF#4 0xF#4 0x0#4 := by rw [h]; rfl
  rw [canonicalWord_pack keep, nibble_kept, nibble_kept, BitVec.and_zero]

theorem canonicalWord_pack_of_st_ignored (h : ignoredMask op = 0x00FF#16) :
    canonicalWord (packFields op r s t) = packFields op r 0x0#4 0x0#4 := by
  have keep : ~~~ ignoredMask op = packFields 0xF#4 0xF#4 0x0#4 0x0#4 := by rw [h]; rfl
  rw [canonicalWord_pack keep, nibble_kept, BitVec.and_zero, BitVec.and_zero]

theorem canonicalWord_pack_of_rst_ignored (h : ignoredMask op = 0x0FFF#16) :
    canonicalWord (packFields op r s t) = packFields op 0x0#4 0x0#4 0x0#4 := by
  have keep : ~~~ ignoredMask op = packFields 0xF#4 0x0#4 0x0#4 0x0#4 := by rw [h]; rfl
  rw [canonicalWord_pack keep, BitVec.and_zero, BitVec.and_zero, BitVec.and_zero]

end Canonical

/-- Encoding what the opcode map gives puts every used field back and 0 in the ignored ones. Arm n of the map is opcode
n - 1; the arms are grouped by what their opcode ignores (R85, R87). -/
theorem encode_decodeFields (op r s t : Nibble) :
    encode (decodeFields op r s t) = canonicalWord (packFields op r s t) := by
  fun_cases decodeFields op r s t
  case case2 | case3 | case4 | case14 =>
    rw [canonicalWord_pack_of_none_ignored rfl]
    exact packFields_immediate _ r s t
  case case6 | case7 | case8 | case9 | case10 => exact (canonicalWord_pack_of_none_ignored rfl).symm
  case case5 | case11 => exact (canonicalWord_pack_of_t_ignored rfl).symm
  case case12 => exact (canonicalWord_pack_of_st_ignored rfl).symm
  case case1 | case13 | case15 => exact (canonicalWord_pack_of_rst_ignored rfl).symm
  case case16 =>
    obtain rfl : op = 0xF#4 := by decide +revert
    exact (canonicalWord_pack_of_rst_ignored rfl).symm

/-- Encoding undoes decoding up to the ignored fields (R87, R98). -/
theorem encode_decodeWord (w : Word) : encode (decodeWord w) = canonicalWord w := by
  rw [decodeWord, encode_decodeFields, pack_fields]

/-- A word shares no bit with a mask exactly if clearing the mask leaves the word as it is. -/
theorem and_eq_zero_iff_and_not_eq_self {n : Nat} (w m : BitVec n) : w &&& m = 0#n ↔ w &&& ~~~ m = w := by
  simp only [BitVec.eq_of_getElem_eq_iff, BitVec.getElem_and, BitVec.getElem_not, BitVec.getElem_zero]
  refine forall₂_congr fun i hi => ?_
  cases w[i] <;> simp

/-- A word is in the canonical encoding exactly if it is its own canonical word (R98). -/
theorem isCanonicalWord_iff (w : Word) : isCanonicalWord w = true ↔ canonicalWord w = w := by
  rw [isCanonicalWord, beq_iff_eq, canonicalWord, and_eq_zero_iff_and_not_eq_self]

/-- The decoder does not see the ignored fields (R87). -/
theorem decodeWord_canonicalWord (w : Word) : decodeWord (canonicalWord w) = decodeWord w := by
  rw [← encode_decodeWord, decodeWord_encode]

end Sys2Proof

namespace Sys2Proof.Machine

/-! ### The loader's image, byte by byte -/

section Loader

variable (s : State) (a : Nat) (ws : List Word)

/-- Loading an image is writing its first word and then loading the rest two bytes on (R100). -/
theorem State.loadWordsAt_cons (w : Word) :
    s.loadWordsAt a (w :: ws) =
      ((s.writeByte a (w.extractLsb' 8 8)).writeByte (a + 1) (w.extractLsb' 0 8)).loadWordsAt (a + 2) ws := rfl

/-- An image changes no register (70_reset_and_hazards.md R204). -/
theorem State.loadWordsAt_sameRegs : SameRegs s (s.loadWordsAt a ws) := by
  intro i
  induction ws generalizing s a with
  | nil => rfl
  | cons w ws ih => rw [State.loadWordsAt_cons, ih, State.getReg_writeByte, State.getReg_writeByte]

/-- An image changes neither `pc` nor a flag, and emits no event (R204). -/
theorem State.loadWordsAt_sameControl : SameControl s (s.loadWordsAt a ws) := by
  induction ws generalizing s a with
  | nil => exact ⟨rfl, rfl, rfl, rfl⟩
  | cons w ws ih => exact ih ((s.writeByte a _).writeByte (a + 1) _) (a + 2)

/-- An image leaves every byte below its first address and past its last one (R100). -/
theorem State.readByte_loadWordsAt_outside {b : Nat} (outside : b < a ∨ a + 2 * ws.length ≤ b) :
    (s.loadWordsAt a ws).readByte b = s.readByte b := by
  induction ws generalizing s a with
  | nil => rfl
  | cons w ws ih =>
    rw [List.length_cons] at outside
    rw [State.loadWordsAt_cons, ih _ _ (by omega), State.readByte_writeByte, if_neg (by omega),
      State.readByte_writeByte, if_neg (by omega)]

/-- Word k of an image stands high byte first in the two bytes 2k on from its first address, while these lie inside
memory (R100). -/
theorem State.readByte_loadWordsAt_word {k : Nat} (hk : k < ws.length) (inside : a + 2 * k + 1 < Config.memSize) :
    (s.loadWordsAt a ws).readByte (a + 2 * k) = ws[k].extractLsb' 8 8 ∧
      (s.loadWordsAt a ws).readByte (a + 2 * k + 1) = ws[k].extractLsb' 0 8 := by
  induction ws generalizing s a k with
  | nil => exact absurd hk (Nat.not_lt_zero k)
  | cons w ws ih =>
    rw [State.loadWordsAt_cons]
    cases k with
    | zero =>
      constructor
      · rw [State.readByte_loadWordsAt_outside _ _ _ (by omega), State.readByte_writeByte, if_neg (by omega),
          State.readByte_writeByte, if_pos ⟨rfl, by omega⟩]
        rfl
      · rw [State.readByte_loadWordsAt_outside _ _ _ (by omega), State.readByte_writeByte, if_pos ⟨rfl, inside⟩]
        rfl
    | succ k =>
      have two_on : a + 2 * (k + 1) = a + 2 + 2 * k := by omega
      rw [two_on] at inside ⊢
      exact ih _ _ (Nat.lt_of_succ_lt_succ hk) inside

end Loader

/-- In the load phase the host's image move completes, and is the loader's image from address 0 (R204). -/
theorem Session.hostLoadImage_of_load {p : Session} (loading : p.phase = .load) (ws : List Word) :
    p.hostLoadImage ws = .next { p with core := p.core.loadWordsAt 0 ws } := by
  rw [Session.hostLoadImage, loading]

/-! ### The statements -/

/-- Settles O2, from the word's round trip and the two bytes of a word. -/
theorem decodeEncodeRoundTrip : Obligations.DecodeEncodeRoundTrip := by
  intro i
  have round_trip : decodeWord (encode i) = i := decodeWord_encode i
  exact ⟨i.wf_eq_true, round_trip, by rw [decodeBytes_bytesOfWord, round_trip]⟩

/-- Settles O3: re-encoding gives the canonical word, which is the word itself exactly if no ignored bit is set. -/
theorem encodeDecodeIsCanonicalWord : Obligations.EncodeDecodeIsCanonicalWord := by
  intro w
  rw [encode_decodeWord]
  exact ⟨rfl, isCanonicalWord_iff w⟩

/-- Settles O4: the decoded instruction and the canonical word determine each other. -/
theorem ignoredFieldsAloneDoNotMatter : Obligations.IgnoredFieldsAloneDoNotMatter := by
  intro v w
  constructor
  · intro same_instr
    rw [← encode_decodeWord v, same_instr, encode_decodeWord]
  · intro same_word
    rw [← decodeWord_canonicalWord v, same_word, decodeWord_canonicalWord]

/-- Settles O53, from the image loaded at address 0: a word with k below 128 ends at byte 255 or before. -/
theorem loaderPlacesImageWords : Obligations.LoaderPlacesImageWords := by
  intro p ws loading
  refine ⟨_, Session.hostLoadImage_of_load loading ws, p.core.loadWordsAt_sameRegs 0 ws,
    p.core.loadWordsAt_sameControl 0 ws, fun k hk below => ?placed, fun a past => ?untouched⟩
  case placed =>
    have inside : 0 + 2 * k + 1 < 256 := by omega
    simpa only [Nat.zero_add] using p.core.readByte_loadWordsAt_word 0 ws hk inside
  case untouched => exact p.core.readByte_loadWordsAt_outside 0 ws (.inr (by omega))

/-- Settles O1, by running the decoder on each of the twelve words. -/
theorem writtenWordsDecode : Obligations.WrittenWordsDecode := by
  unfold Obligations.WrittenWordsDecode
  decide

/-- Settles O5: the decoder reads a word by its fields, and the opcode map keeps the opcode. -/
theorem topNibbleSelectsInstruction : Obligations.TopNibbleSelectsInstruction := by
  intro op r s t
  calc (decodeWord (packFields op r s t)).opcode
    _ = (decodeFields op r s t).opcode := by rw [decodeWord_pack]
    _ = op := opcode_decodeFields op r s t

end Sys2Proof.Machine

/-! ## Proofs of the family `40_fetch_decode.md`

The rules first: when there is a step, what an executed instruction does to `pc`, what FADD's sum is in the two number
forms of the codec, and which phase of a session is the ended one. Then the statements, each from these rules. -/

namespace Sys2Proof.Machine

/-! ### When there is a step -/

section Steps

variable {s : State}

/-- The advance by 2 below 256 does not wrap (40_fetch_decode.md R112). -/
theorem State.toNat_pc_add_two (h : s.pc.toNat ≤ 255) : (s.pc + 2#16).toNat = s.pc.toNat + 2 := by
  bv_omega

/-- In Faulted no step is taken (R110). -/
theorem step_of_faulted (h : s.faulted = true) : step s = .fault .runEndedFaulted := by
  simp only [step, s.runState_faulted.mpr h]

/-- In Halted no step is taken (R110). -/
theorem step_of_halted (not_faulted : s.faulted = false) (h : s.halted = true) : step s = .fault .runEndedHalted := by
  simp only [step, s.runState_halted.mpr ⟨h, not_faulted⟩]

/-- In Fetching a step is always taken: below 256 every instruction completes, and beyond is the fault (R110, R111). -/
theorem step_completes_of_fetching (h : s.Fetching) : ∃ t, step s = .next t := by
  obtain ⟨not_halted, not_faulted⟩ := h
  by_cases inside : s.pc.toNat < 256
  · obtain ⟨t, ht, -⟩ := exec_completes_with_effect (decodeWord s.fetched) s.advancePc
    exact ⟨t, (step_fetching s not_halted not_faulted inside).trans ht⟩
  · exact ⟨_, step_out_of_bounds s not_halted not_faulted (by omega)⟩

end Steps

/-! ### The registers but one, and `pc` -/

/-- A register write leaves every other register alone (10_state.md R23). -/
theorem State.setReg_sameRegsBut (s : State) (d : RegIdx) (v : Word) : SameRegsBut d s (s.setReg d v) := by
  intro i ne
  rw [State.getReg_setReg, if_neg ne]

/-- A branch target is an address in range (44_control.md R172). -/
theorem toNat_immediateTarget (xy : Byte) : (immediateTarget xy).toNat = xy.toNat :=
  BitVec.toNat_setWidth_of_le (by decide)

/-- Of all instructions only JUMP and a taken BGTJMP write `pc` (44_control.md R175). -/
theorem ExecEffect.pc_cases {s t : State} {i : Instr} (effect : ExecEffect s i t) :
    t.pc = s.pc ∨ (∃ r, i = .jump r ∧ t.pc = s.getReg r) ∨
      ∃ r xy, i = .bgtjmp r xy ∧ signedGreater (s.getReg r) (s.getReg 0x0#4) = true ∧ t.pc = immediateTarget xy := by
  cases effect with
  | writesReg | drawsFreeByte | storesByte | fallsThrough | halts => exact .inl rfl
  | @jumps r => exact .inr (.inl ⟨r, rfl, rfl⟩)
  | @branches r xy greater => exact .inr (.inr ⟨r, xy, rfl, greater, rfl⟩)

/-! ### The free byte -/

section FreeByte

/-- The Q7 value of a byte is its real value in units of 2^-7 (43_packed_float.md R151, R152). -/
theorem cast_pfDecodeQ (b : Byte) : (pfDecodeQ b : ℚ) = pfDecode b * 128 := by
  have two_pow : (2 : ℚ) ^ ((pfExponent b : ℤ) - 4) = 2 ^ pfExponent b / 16 := by
    rw [zpow_sub₀ two_ne_zero, zpow_natCast]
    norm_num
  unfold pfDecodeQ pfDecode
  rw [two_pow]
  split <;> push_cast <;> ring

/-- The Q7 sum that FADD encodes is zero exactly where the sum of the two decoded numbers is (R156, R158). -/
theorem faddSum_eq_zero_iff (v : Word) (k : Nibble) :
    faddSum v k = 0 ↔ pfDecode (v.extractLsb' 0 8) + pfDecode (k.setWidth 8) = 0 := by
  have in_units : (faddSum v k : ℚ) = (pfDecode (v.extractLsb' 0 8) + pfDecode (k.setWidth 8)) * 128 := by
    rw [faddSum, Int.cast_add, cast_pfDecodeQ, cast_pfDecodeQ, ← add_mul]
    rfl
  rw [← Int.cast_eq_zero (α := ℚ), in_units]
  simp

/-- Where FADD's sum has an encoding, FADD writes it and does nothing else (R158). -/
theorem State.faddWrite_of_encoded {s : State} {wrap : PfWrap} {r a : RegIdx} {k : Nibble} {b : Byte}
    (encoded : pfEncodeQ wrap (faddSum (s.getReg a) k) = some b) : s.faddWrite wrap r a k = s.setReg r (zext16 b) := by
  rw [State.faddWrite, encoded]

variable {s t : State} {i : Instr}

/-- `i` is no FADD whose sum is zero in `s` (R160). -/
def NoZeroSum (i : Instr) (s : State) : Prop := ∀ r a k, i = .fadd r a k → faddSum (s.getReg a) k ≠ 0

/-- Only an FADD with a zero sum draws a free byte (40_fetch_decode.md R117). -/
theorem ExecEffect.draws_eq (effect : ExecEffect s i t) (no_zero_sum : NoZeroSum i s) : t.draws = s.draws := by
  cases effect with
  | @drawsFreeByte r a k v zeroSum => exact absurd zeroSum (no_zero_sum r a k rfl)
  | writesReg | storesByte | jumps | branches | fallsThrough | halts => rfl

/-- The count of drawn free bytes takes part in no instruction but an FADD with a zero sum (R117). -/
theorem exec_of_other_draws (h : exec i s = .next t) (no_zero_sum : NoZeroSum i s) (n : Nat) :
    exec i { s with draws := n } = .next { t with draws := n } := by
  cases i with
  | fadd r a k =>
    obtain ⟨b, encoded, written⟩ | ⟨zero_sum, -⟩ := State.faddWrite_cases Config.pfWrap r a k s
    · have encoded_too : pfEncodeQ Config.pfWrap (faddSum (State.getReg { s with draws := n } a) k) = some b := encoded
      rw [exec_fadd, written] at h
      rw [exec_fadd, State.faddWrite_of_encoded encoded_too]
      cases h
      rfl
    · exact absurd zero_sum (no_zero_sum r a k rfl)
  | bgtjmp r xy =>
    have same_reg (j : RegIdx) : State.getReg { s with draws := n } j = s.getReg j := rfl
    rw [exec_bgtjmp] at h ⊢
    rw [same_reg, same_reg]
    cases h
    split <;> rfl
  | loadm | loadi | store | move | add | or | and | xor | ror | jump | halt | haltOp0 | haltOpE | haltOpF =>
    cases h
    rfl

end FreeByte

/-! ### The ended phase -/

section Ended

variable {p : Session}

/-- A session in the ended phase has left Fetching (70_reset_and_hazards.md R203). -/
theorem Session.not_fetching_of_ended (ended : p.phase = .ended) : ¬ p.core.Fetching := by
  intro fetching
  simp only [Session.phase, p.core.runState_fetching.mpr fetching] at ended
  split at ended <;> exact absurd ended (by decide)

/-- A pass of the run loop that is taken is a step of the core (40_fetch_decode.md R110). -/
theorem Session.step_of_tick {q : Session} (h : p.tick = .next q) : step p.core = .next q.core := by
  unfold Session.tick at h
  split at h
  · split at h
    · cases h
      assumption
    · cases h
    · cases h
  · cases h

/-- In the ended phase every port answers its value (R207). -/
theorem Session.hostRead_of_ended (ended : p.phase = .ended) {α : Type} (port : State → α) :
    p.hostRead port = .next (port p.core) := by
  simp only [Session.hostRead, ended]

/-- A core that meets its invariant outside Fetching ended by a HALT or by the fault, with that ending's one event
(40_fetch_decode.md R118). -/
theorem State.ended_cases {s : State} (inv : s.Inv) (not_fetching : ¬ s.Fetching) :
    (s.halted = true ∧ s.faulted = false ∧ s.events = [.haltNotice]) ∨
      (s.halted = false ∧ s.faulted = true ∧ 256 ≤ s.pc.toNat ∧ s.events = [.faultReport .pcOutOfBounds s.pc]) := by
  obtain ⟨-, not_both, owed, pc_out⟩ := inv
  unfold State.owedEvents at owed
  split at owed
  case h_1 fetching => exact absurd (s.runState_fetching.mp fetching) not_fetching
  case h_2 halted =>
    obtain ⟨halted, not_faulted⟩ := s.runState_halted.mp halted
    exact .inl ⟨halted, not_faulted, owed⟩
  case h_3 faulted =>
    have faulted := s.runState_faulted.mp faulted
    have not_halted : s.halted = false := Bool.eq_false_iff.mpr fun halted => not_both ⟨halted, faulted⟩
    exact .inr ⟨not_halted, faulted, pc_out faulted, owed⟩

end Ended

/-! ### The statements -/

/-- Settles O37: a step starts in Fetching, and in Fetching one is always taken. -/
theorem stepExistsExactlyWhileFetching : Obligations.StepExistsExactlyWhileFetching := fun _ =>
  ⟨fun ⟨_, h⟩ => (step_effect h).1, step_completes_of_fetching⟩

/-- Settles O39: `pc` leaves memory by the advance or by a JUMP, a branch target being below 256; the next step then
begins out of bounds. -/
theorem leavingMemoryFaultsNextStep : Obligations.LeavingMemoryFaultsNextStep := by
  intro s t h inside ⟨not_halted, not_faulted⟩ left
  refine ⟨?how_left, t.raisePcOutOfBounds, step_out_of_bounds t not_halted not_faulted left, rfl, not_halted, rfl,
    fun _ => rfl, fun _ => rfl, rfl⟩
  obtain ⟨-, ⟨out, -⟩ | ⟨-, effect⟩⟩ := step_effect h
  · omega
  · obtain advanced | ⟨r, is_jump, -⟩ | ⟨r, xy, -, -, to_target⟩ := effect.pc_cases
    · have two_on : t.pc.toNat = s.pc.toNat + 2 := by rw [advanced, s.advancePc_pc, State.toNat_pc_add_two inside]
      exact .inl (by omega)
    · exact .inr ⟨r, is_jump⟩
    · rw [to_target, toNat_immediateTarget] at left
      exact absurd xy.isLt (Nat.not_lt.mpr left)

/-- Settles O41: the effect of the decoded instruction, on the state after the advance, is its footprint. -/
theorem stepChangesAtMostOneThing : Obligations.StepChangesAtMostOneThing := by
  intro s t h
  obtain ⟨-, ⟨out, rfl⟩ | ⟨inside, effect⟩⟩ := step_effect h
  · exact .inl ⟨out, fun _ => rfl, fun _ => rfl, rfl, rfl, rfl⟩
  · refine .inr ⟨inside, effect.faulted_eq, ?_⟩
    generalize decodeWord s.fetched = i at effect ⊢
    cases effect with
    | @writesReg _ d v dest => exact .inl ⟨d, dest, s.advancePc.setReg_sameRegsBut d v, fun _ => rfl, rfl⟩
    | @drawsFreeByte r a k v => exact .inl ⟨r, rfl, s.advancePc.setReg_sameRegsBut r v, fun _ => rfl, rfl⟩
    | @storesByte r xy =>
      refine .inr (.inl ⟨r, xy, rfl, fun _ => rfl, fun b ne => ?_, rfl⟩)
      exact (s.advancePc.readByte_writeByte_immediate xy _ b).trans (if_neg ne)
    | @jumps r => exact .inr (.inr (.inl ⟨.inl ⟨r, rfl⟩, fun _ => rfl, fun _ => rfl, rfl⟩))
    | @branches r xy | @fallsThrough r xy =>
      exact .inr (.inr (.inl ⟨.inr ⟨r, xy, rfl⟩, fun _ => rfl, fun _ => rfl, rfl⟩))
    | halts isHalt => exact .inr (.inr (.inr ⟨isHalt, fun _ => rfl, fun _ => rfl, rfl⟩))

/-- Settles O46: neither the fault nor an instruction without a zero sum reads or writes the count. -/
theorem freeByteMattersToZeroSumFaddOnly : Obligations.FreeByteMattersToZeroSumFaddOnly := by
  intro s t n h sum_ne_zero
  have no_zero_sum : NoZeroSum (decodeWord s.fetched) s.advancePc := fun r a k is_fadd zero_sum =>
    sum_ne_zero r a k is_fadd ((faddSum_eq_zero_iff _ k).mp zero_sum)
  obtain ⟨not_halted, not_faulted, ⟨out, rfl⟩ | ⟨inside, executed⟩⟩ := step_next_cases h
  · exact ⟨rfl, step_out_of_bounds { s with draws := n } not_halted not_faulted out⟩
  · exact ⟨(exec_effect executed).draws_eq no_zero_sum,
      (step_fetching { s with draws := n } not_halted not_faulted inside).trans
        (exec_of_other_draws executed no_zero_sum n)⟩

/-- Settles O56: the ended core is outside Fetching, so that no step is taken, and its events are those owed. -/
theorem endedRunIsFrozenWithOneEvent : Obligations.EndedRunIsFrozenWithOneEvent := by
  intro p inv ended
  have not_fetching : ¬ p.core.Fetching := Session.not_fetching_of_ended ended
  exact ⟨fun q ticked => not_fetching (step_effect (Session.step_of_tick ticked)).1,
    fun _ => Session.hostRead_of_ended ended _, fun _ => Session.hostRead_of_ended ended _,
    Session.hostRead_of_ended ended _, Session.hostRead_of_ended ended _, State.ended_cases inv.1 not_fetching⟩

/-- Settles O34: the two bytes are the fetched word. -/
theorem stepRunsDecodedInstruction : Obligations.StepRunsDecodedInstruction := by
  intro s i ⟨not_halted, not_faulted⟩ inside decoded
  rw [decodeBytes, ← s.fetched_eq] at decoded
  cases decoded
  exact ⟨step_fetching s not_halted not_faulted (by omega), State.toNat_pc_add_two inside⟩

/-- Settles O35, from what raising the fault does. -/
theorem outOfBoundsStepFaults : Obligations.OutOfBoundsStepFaults := fun s ⟨not_halted, not_faulted⟩ out =>
  step_out_of_bounds s not_halted not_faulted out

/-- Settles O36, for each terminal run state. -/
theorem terminalStatesHaveNoStep : Obligations.TerminalStatesHaveNoStep := fun _ =>
  ⟨step_of_faulted, step_of_halted⟩

end Sys2Proof.Machine

/-! ## Proofs of the family `41_data_transfer.md`

The rules first: an instruction word written with its 8-bit immediate, the values of a widened byte and of a narrowed
word, the frame of a register write, and what each instruction of the family does. Then the statements, each from these
rules. -/

namespace Sys2Proof.Machine

/-! ### A word written with its immediate -/

/-- The low byte of an instruction word is its fields s and t (30_encoding.md R81, R84). -/
theorem append_immediate (op r : Nibble) (xy : Byte) :
    op ++ r ++ xy = packFields op r (immediateHigh xy) (immediateLow xy) := by
  have nibbles : immediateHigh xy ++ immediateLow xy = xy := BitVec.extractLsb'_append_extractLsb'
  calc op ++ r ++ xy
    _ = op ++ r ++ (immediateHigh xy ++ immediateLow xy) := by rw [nibbles]
    _ = packFields op r (immediateHigh xy) (immediateLow xy) := BitVec.append_assoc.symm

/-! ### Widening and narrowing -/

/-- Widening keeps the value of a byte (41_data_transfer.md R130, R131). -/
theorem toNat_zext16 (b : Byte) : (zext16 b).toNat = b.toNat :=
  BitVec.toNat_setWidth_of_le (by decide)

/-- Narrowing keeps the value modulo 256 (R132). -/
theorem toNat_lowByte (v : Word) : (lowByte v).toNat = v.toNat % 256 :=
  BitVec.extractLsb'_toNat 0 8 v

/-! ### What the instructions do -/

/-- A register write changes that register only (10_state.md R23). -/
theorem State.setReg_onlyRegChanges (s : State) (d : RegIdx) (v : Word) : OnlyRegChanges d s (s.setReg d v) :=
  ⟨s.setReg_sameRegsBut d v, ⟨rfl, rfl, rfl, rfl⟩, fun _ => rfl, rfl⟩

/-- LOADM writes its register with the widened byte at its immediate address (41_data_transfer.md R130). -/
theorem exec_loadm (r : RegIdx) (xy : Byte) (s : State) :
    exec (.loadm r xy) s = .next (s.setReg r (zext16 (s.readByte xy.toNat))) := rfl

/-- LOADI writes its register with the widened immediate (R131). -/
theorem exec_loadi (r : RegIdx) (xy : Byte) (s : State) : exec (.loadi r xy) s = .next (s.setReg r (zext16 xy)) := rfl

/-- MOVE writes the register of its second field with the register of its first (R133). -/
theorem exec_move (r d : RegIdx) (s : State) : exec (.move r d) s = .next (s.setReg d (s.getReg r)) := rfl

/-! ### The statements -/

/-- Settles O8, from read after write at the immediate address. -/
theorem storeWritesLowByteOnly : Obligations.StoreWritesLowByteOnly := by
  intro r xy s
  refine ⟨?decodes, _, exec_store r xy s, ?stored, fun a ne => ?other_byte, fun _ => rfl, ⟨rfl, rfl, rfl, rfl⟩, rfl⟩
  case decodes => rw [append_immediate]; exact decodeWord_encode (.store r xy)
  case stored => rw [s.readByte_writeByte_immediate, if_pos rfl, toNat_lowByte]
  case other_byte => rw [s.readByte_writeByte_immediate, if_neg ne]

/-- Settles O6: the byte is widened with its value kept. -/
theorem loadmLoadsByteZeroExtended : Obligations.LoadmLoadsByteZeroExtended := by
  intro r xy s
  refine ⟨?decodes, _, exec_loadm r xy s, ?loaded, s.setReg_onlyRegChanges r _⟩
  case decodes => rw [append_immediate]; exact decodeWord_encode (.loadm r xy)
  case loaded => rw [State.getReg_setReg_same, toNat_zext16]

/-- Settles O7: the literal is widened with its value kept. -/
theorem loadiLoadsLiteral : Obligations.LoadiLoadsLiteral := by
  intro r xy s
  refine ⟨?decodes, _, exec_loadi r xy s, ?loaded, s.setReg_onlyRegChanges r _⟩
  case decodes => rw [append_immediate]; exact decodeWord_encode (.loadi r xy)
  case loaded => rw [State.getReg_setReg_same, toNat_zext16]

/-- Settles O9: the decoder drops field t, and the write at field s is read back. -/
theorem moveCopiesFieldRIntoFieldS : Obligations.MoveCopiesFieldRIntoFieldS := fun r d u s =>
  ⟨decodeWord_pack 0x4#4 r d u, _, exec_move r d s, s.getReg_setReg_same d _, s.setReg_onlyRegChanges d _⟩

end Sys2Proof.Machine

/-! ## Proofs of the family `42_integer_alu.md`

The rules first: the rotation bit by bit, and what each instruction of the family does. Then the statements, each from
these rules. -/

namespace Sys2Proof.Machine

/-! ### The rotation -/

section Rotation

variable (v : Word) (n m : Nat)

/-- `rotr16` is the library's rotation (42_integer_alu.md R146). The model sets apart the amounts that are
multiples of 16; there the left shift by 16 adds nothing. -/
theorem rotr16_eq_rotateRight : rotr16 v n = v.rotateRight n := by
  rw [BitVec.rotateRight_def]
  by_cases multiple : n % 16 = 0
  · have shifted_out : v <<< 16 = 0#16 := BitVec.shiftLeft_eq_zero (Nat.le_refl 16)
    calc rotr16 v n
      _ = v := if_pos multiple
      _ = v >>> (n % 16) ||| v <<< (16 - n % 16) := by simp [multiple, shifted_out]
  · exact if_neg multiple

/-- The bits of a rotated word, as R146 gives them. -/
theorem getLsbD_rotr16 {i : Nat} (hi : i < 16) : (rotr16 v n).getLsbD i = v.getLsbD ((i + n) % 16) := by
  rw [rotr16_eq_rotateRight, BitVec.getLsbD_rotateRight, Bool.cond_decide]
  split
  case isTrue kept_right =>
    have source : n % 16 + i = (i + n) % 16 := by omega
    rw [source]
  case isFalse wrapped_round =>
    have source : i - (16 - n % 16) = (i + n) % 16 := by omega
    rw [source, decide_eq_true hi, Bool.true_and]

/-- Amounts that agree modulo 16 rotate alike (R146). -/
theorem rotr16_congr {n m : Nat} (same : n % 16 = m % 16) : rotr16 v n = rotr16 v m := by
  refine BitVec.eq_of_getLsbD_eq fun i hi => ?_
  rw [getLsbD_rotr16 v n hi, getLsbD_rotr16 v m hi, Nat.add_mod, same, ← Nat.add_mod]

/-- Rotation by 0 changes nothing (R146). -/
theorem rotr16_zero : rotr16 v 0 = v := rfl

/-- Two rotations are one by the sum of the amounts (R146). -/
theorem rotr16_rotr16 : rotr16 (rotr16 v n) m = rotr16 v (n + m) := by
  refine BitVec.eq_of_getLsbD_eq fun i hi => ?_
  have inside : (i + m) % 16 < 16 := Nat.mod_lt _ (by decide)
  have source : ((i + m) % 16 + n) % 16 = (i + (n + m)) % 16 := by omega
  rw [getLsbD_rotr16 _ m hi, getLsbD_rotr16 v n inside, getLsbD_rotr16 v (n + m) hi, source]

end Rotation

/-! ### What the instructions do -/

section Executed

variable (r a b : RegIdx) (s : State)

/-- ADD writes its register with the sum of the two sources (42_integer_alu.md R140). -/
theorem exec_add : exec (.add r a b) s = .next (s.setReg r (s.getReg a + s.getReg b)) := rfl

/-- OR writes its register with the bitwise or of the two sources (R141). -/
theorem exec_or : exec (.or r a b) s = .next (s.setReg r (s.getReg a ||| s.getReg b)) := rfl

/-- AND writes its register with the bitwise and of the two sources (R142). -/
theorem exec_and : exec (.and r a b) s = .next (s.setReg r (s.getReg a &&& s.getReg b)) := rfl

/-- XOR writes its register with the bitwise exclusive or of the two sources (R143). -/
theorem exec_xor : exec (.xor r a b) s = .next (s.setReg r (s.getReg a ^^^ s.getReg b)) := rfl

/-- ROR writes its register with its own rotation, by the field s itself (R145). -/
theorem exec_ror (n : Nibble) : exec (.ror r n) s = .next (s.setReg r (rotr16 (s.getReg r) n.toNat)) := rfl

end Executed

/-! ### The statements -/

/-- Settles O12: the decoder drops field t, and the rotated register is read back bit by bit. -/
theorem rorRotatesRightBySField : Obligations.RorRotatesRightBySField := by
  intro r n u s
  refine ⟨decodeWord_pack 0xA#4 r n u, _, exec_ror r s n, fun i hi => ?rotated, s.setReg_onlyRegChanges r _⟩
  case rotated => rw [State.getReg_setReg_same, getLsbD_rotr16 _ _ hi]

/-- Settles O13, from the reduction of the amount modulo 16 and the composition of rotations. -/
theorem rotateRightProperties : Obligations.RotateRightProperties := by
  refine ⟨rotr16_zero, fun v => ?by_sixteen, by decide, fun v n => ?periodic, rotr16_rotr16⟩
  case by_sixteen => exact (rotr16_congr v (by decide : 16 % 16 = 0 % 16)).trans (rotr16_zero v)
  case periodic => exact rotr16_congr v (Nat.mod_mod n 16).symm

/-- Settles O10: the sum of two words is taken modulo 65536. -/
theorem addWrapsModulo65536 : Obligations.AddWrapsModulo65536 := by
  intro r a b s
  refine ⟨decodeWord_pack 0x5#4 r a b, _, exec_add r a b s, ?sum, s.setReg_onlyRegChanges r _⟩
  case sum => rw [State.getReg_setReg_same]; exact BitVec.toNat_add _ _

/-- Settles O11: each instruction's word is read back, and its bits are those of the bitwise operation. -/
theorem bitwiseInstructionsCombineEveryBit : Obligations.BitwiseInstructionsCombineEveryBit := by
  intro r a b s
  refine ⟨⟨decodeWord_pack 0x7#4 r a b, _, exec_or r a b s, s.setReg_onlyRegChanges r _, fun i => ?or_bit⟩,
    ⟨decodeWord_pack 0x8#4 r a b, _, exec_and r a b s, s.setReg_onlyRegChanges r _, fun i => ?and_bit⟩,
    ⟨decodeWord_pack 0x9#4 r a b, _, exec_xor r a b s, s.setReg_onlyRegChanges r _, fun i => ?xor_bit⟩⟩
  case or_bit => rw [State.getReg_setReg_same, BitVec.getLsbD_or]
  case and_bit => rw [State.getReg_setReg_same, BitVec.getLsbD_and]
  case xor_bit => rw [State.getReg_setReg_same, BitVec.getLsbD_xor]

end Sys2Proof.Machine

/-! ## Proofs of the family `43_packed_float.md`

The rules first: the fields of a byte and the number they stand for, the two packings, the encoder on exact numbers and
on Q7 integers, and the two cases of FADD. Then the statements, each from these rules. -/

namespace Sys2Proof.Machine

/-! ### The fields of a byte -/

section ByteFields

variable (b : Byte)

/-- The sign field as a number (43_packed_float.md R150). -/
theorem toNat_pfSign : (pfSign b).toNat = b.toNat / 128 := by
  have top_bit : b.toNat / 128 < 2 := by omega
  rw [pfSign, BitVec.getLsbD, Nat.toNat_testBit]
  exact Nat.mod_eq_of_lt top_bit

/-- The exponent field is bits 6 to 3 (R150). -/
theorem pfExponent_eq : pfExponent b = b.toNat / 8 % 16 := by
  rw [pfExponent, BitVec.extractLsb'_toNat, Nat.shiftRight_eq_div_pow]

/-- The fraction field is bits 2 to 0 (R150). -/
theorem pfFraction_eq : pfFraction b = b.toNat % 8 := BitVec.extractLsb'_toNat 0 3 b

theorem pfExponent_lt : pfExponent b < 16 := (b.extractLsb' 3 4).isLt

theorem pfFraction_lt : pfFraction b < 8 := (b.extractLsb' 0 3).isLt

variable {b} in
/-- A byte is its three fields (R150). -/
theorem eq_of_pfFields {c : Byte} (sign : pfSign b = pfSign c) (exponent : pfExponent b = pfExponent c)
    (fraction : pfFraction b = pfFraction c) : b = c := by
  have sign_nat := congrArg Bool.toNat sign
  rw [toNat_pfSign, toNat_pfSign] at sign_nat
  rw [pfExponent_eq, pfExponent_eq] at exponent
  rw [pfFraction_eq, pfFraction_eq] at fraction
  exact BitVec.eq_of_toNat_eq (by omega)

/-! ### The number a byte stands for -/

/-- The magnitude of the number a byte stands for, (1 + M/8) 2^(E-4) (R152). -/
def pfMagnitude : ℚ := (1 + (pfFraction b : ℚ) / 8) * 2 ^ ((pfExponent b : ℤ) - 4)

/-- The decoded number is the magnitude with the sign (R152). -/
theorem pfDecode_eq : pfDecode b = if pfSign b then -pfMagnitude b else pfMagnitude b := by
  rw [pfDecode, mul_assoc, ite_mul, neg_one_mul, one_mul]
  rfl

/-- The leading 1 of the magnitude stands at 2^(E-4) (R150, R152). -/
theorem two_zpow_le_pfMagnitude : (2 : ℚ) ^ ((pfExponent b : ℤ) - 4) ≤ pfMagnitude b :=
  le_mul_of_one_le_left (by positivity) (le_add_of_nonneg_right (by positivity))

/-- The magnitude is at most 15/8 of its leading 1 (R150, R152). -/
theorem pfMagnitude_le : pfMagnitude b ≤ 15 / 8 * 2 ^ ((pfExponent b : ℤ) - 4) := by
  have fraction_le : (pfFraction b : ℚ) ≤ 7 := by exact_mod_cast Nat.le_of_lt_succ (pfFraction_lt b)
  exact mul_le_mul_of_nonneg_right (by linarith) (by positivity)

theorem pfMagnitude_pos : 0 < pfMagnitude b :=
  (zpow_pos two_pos _).trans_le (two_zpow_le_pfMagnitude b)

theorem abs_pfDecode : |pfDecode b| = pfMagnitude b := by
  rw [pfDecode_eq]
  split
  · rw [abs_neg, abs_of_pos (pfMagnitude_pos b)]
  · exact abs_of_pos (pfMagnitude_pos b)

/-- The sign bit says that the number is negative (R152). -/
theorem pfDecode_neg_iff : pfDecode b < 0 ↔ pfSign b = true := by
  have positive := pfMagnitude_pos b
  rw [pfDecode_eq]
  split
  case isTrue negative => simp [negative, positive]
  case isFalse not_negative => simp [not_negative, positive.le]

/-- Inverting bit 7 negates (R153). -/
theorem pfDecode_xor_sign : pfDecode (b ^^^ 0x80#8) = -pfDecode b := by
  have sign : pfSign (b ^^^ 0x80#8) = !pfSign b := by simp [pfSign]
  have exponent : pfExponent (b ^^^ 0x80#8) = pfExponent b := by
    rw [pfExponent, BitVec.extractLsb'_xor, (by decide : (0x80#8).extractLsb' 3 4 = 0#4), BitVec.xor_zero, pfExponent]
  have fraction : pfFraction (b ^^^ 0x80#8) = pfFraction b := by
    rw [pfFraction, BitVec.extractLsb'_xor, (by decide : (0x80#8).extractLsb' 0 3 = 0#3), BitVec.xor_zero, pfFraction]
  have magnitude : pfMagnitude (b ^^^ 0x80#8) = pfMagnitude b := by rw [pfMagnitude, exponent, fraction, pfMagnitude]
  rw [pfDecode_eq, pfDecode_eq, sign, magnitude]
  cases pfSign b <;> simp

end ByteFields

/-! ### The packings -/

section Packing

variable (wrap : PfWrap) (sign : Bool) (eb : Int) (mb : BitVec 3)

/-- `trunc8` is `mask4` with bit 4 of the exponent field OR-ed into the sign (R157). -/
theorem pfPack_trunc8 :
    pfPack .trunc8 sign eb mb = pfPack .mask4 (sign || (BitVec.ofInt 5 eb).getLsbD 4) eb mb := by
  have scaled : BitVec.ofInt 8 (8 * eb) = BitVec.ofInt 5 eb ++ 0#3 := by
    apply BitVec.eq_of_toNat_eq
    rw [BitVec.toNat_append, BitVec.toNat_ofInt, BitVec.toNat_ofInt, Nat.shiftLeft_eq]
    simp only [BitVec.toNat_ofNat, Nat.zero_mod, Nat.or_zero]
    omega
  have masked : BitVec.ofInt 4 eb = (BitVec.ofInt 5 eb).setWidth 4 := by
    apply BitVec.eq_of_toNat_eq
    rw [BitVec.toNat_setWidth, BitVec.toNat_ofInt, BitVec.toNat_ofInt]
    omega
  have packed : ∀ (sign : Bool) (x : BitVec 5) (mb : BitVec 3),
      (if sign then 0x80#8 else 0x00#8) ||| (x ++ 0#3) ||| mb.setWidth 8 =
        BitVec.ofBool (sign || x.getLsbD 4) ++ x.setWidth 4 ++ mb := by
    decide
  rw [pfPack, pfPack, scaled, masked, packed]

/-- Where the exponent field fits in four bits, the packings are one (R157). -/
theorem pfPack_of_in_range {eb : Int} (low : 0 ≤ eb) (high : eb ≤ 15) :
    pfPack wrap sign eb mb = pfPack .mask4 sign eb mb := by
  cases wrap with
  | mask4 => rfl
  | trunc8 =>
    have no_spill : (BitVec.ofInt 5 eb).getLsbD 4 = false := by
      interval_cases eb <;> rfl
    rw [pfPack_trunc8, no_spill, Bool.or_false]

/-- The `mask4` packing keeps the sign (R157). -/
theorem pfSign_pfPack_mask4 : pfSign (pfPack .mask4 sign eb mb) = sign := by
  rw [pfPack, pfSign, BitVec.getLsbD_append, BitVec.getLsbD_append, BitVec.getLsbD_ofBool]
  simp

/-- The `mask4` packing keeps the exponent field modulo 16 (R157). -/
theorem pfExponent_pfPack_mask4 : pfExponent (pfPack .mask4 sign eb mb) = (BitVec.ofInt 4 eb).toNat := by
  rw [pfPack, pfExponent, BitVec.extractLsb'_append_eq_of_le le_rfl, BitVec.extractLsb'_append_eq_right]

theorem pfFraction_pfPack_mask4 : pfFraction (pfPack .mask4 sign eb mb) = mb.toNat := by
  rw [pfPack, pfFraction, BitVec.extractLsb'_append_eq_right]

/-- The low seven bits of the `mask4` packing are the exponent field and the fraction (R157). -/
theorem extractLsb'_pfPack_mask4 : (pfPack .mask4 sign eb mb).extractLsb' 0 7 = BitVec.ofInt 4 eb ++ mb :=
  (congrArg (BitVec.extractLsb' 0 7) BitVec.append_assoc).trans BitVec.extractLsb'_append_eq_right

end Packing

/-! ### The encoder on exact numbers -/

section Encoding

variable {wrap : PfWrap} {v : ℚ} {e : ℤ}

/-- The truncated fraction of a significand is three bits (R155). -/
theorem fraction_mem_Ico {a : ℚ} (low : (2 : ℚ) ^ e ≤ a) (high : a < 2 ^ (e + 1)) :
    0 ≤ ⌊(a / 2 ^ e - 1) * 8⌋ ∧ ⌊(a / 2 ^ e - 1) * 8⌋ < 8 := by
  have scale_pos : (0 : ℚ) < 2 ^ e := zpow_pos two_pos e
  have one_le : 1 ≤ a / 2 ^ e := (one_le_div scale_pos).mpr low
  have lt_two : a / 2 ^ e < 2 := by rwa [div_lt_iff₀ scale_pos, ← zpow_one_add₀ two_ne_zero, add_comm]
  rw [Int.floor_nonneg, Int.floor_lt]
  constructor
  · linarith
  · push_cast
    linarith

/-- The encoder packs sign, exponent and truncated fraction, for the e with 2^e ≤ |v| < 2^(e+1) (R155). -/
theorem pfEncode_eq (low : (2 : ℚ) ^ e ≤ |v|) (high : |v| < 2 ^ (e + 1)) :
    pfEncode wrap v =
      some (pfPack wrap (decide (v < 0)) (e + 4) (BitVec.ofInt 3 ⌊(|v| / 2 ^ e - 1) * 8⌋)) := by
  have v_pos : 0 < |v| := (zpow_pos two_pos e).trans_le low
  have exponent : Int.log 2 |v| = e := le_antisymm
    (Int.lt_add_one_iff.mp ((Int.lt_zpow_iff_log_lt one_lt_two v_pos).mp (by exact_mod_cast high)))
    ((Int.zpow_le_iff_le_log one_lt_two v_pos).mp (by exact_mod_cast low))
  simp only [pfEncode, if_neg (abs_pos.mp v_pos), exponent]

/-- Where the exponent fits, the encoded byte has the sign, e + 4 and the truncated fraction as its fields, under both
packings (R155, R157). -/
theorem pfEncode_fields (low : (2 : ℚ) ^ e ≤ |v|) (high : |v| < 2 ^ (e + 1)) (e_low : -4 ≤ e) (e_high : e ≤ 11) :
    ∃ b, pfEncode wrap v = some b ∧ (pfSign b = true ↔ v < 0) ∧ (pfExponent b : ℤ) = e + 4 ∧
      (pfFraction b : ℤ) = ⌊(|v| / 2 ^ e - 1) * 8⌋ := by
  obtain ⟨nonneg, lt_eight⟩ := fraction_mem_Ico low high
  refine ⟨_, pfEncode_eq low high, ?sign, ?exponent, ?fraction⟩
  all_goals rw [pfPack_of_in_range _ _ _ (by omega) (by omega)]
  case sign => rw [pfSign_pfPack_mask4, decide_eq_true_iff]
  case exponent => rw [pfExponent_pfPack_mask4, BitVec.toNat_ofInt]; omega
  case fraction => rw [pfFraction_pfPack_mask4, BitVec.toNat_ofInt]; omega

/-- The exponent of a magnitude from 1/16 up to 4096 fits (R162 b). -/
theorem exponent_fits {a : ℚ} (least : 1 / 16 ≤ a) (most : a < 4096) (low : (2 : ℚ) ^ e ≤ a)
    (high : a < 2 ^ (e + 1)) : -4 ≤ e ∧ e ≤ 11 := by
  have above : (2 : ℚ) ^ (-4 : ℤ) < 2 ^ (e + 1) := lt_of_eq_of_lt (by norm_num) (least.trans_lt high)
  have below : (2 : ℚ) ^ e < 2 ^ (12 : ℤ) := (low.trans_lt most).trans_eq (by norm_num)
  rw [zpow_lt_zpow_iff_right₀ one_lt_two] at above below
  omega

/-- A byte with exponent field e + 4 and the truncated fraction stands for a magnitude that is at most a and less than
one unit of the fraction below it (R162 b). -/
theorem pfMagnitude_truncates {a : ℚ} {b : Byte} (exponent : (pfExponent b : ℤ) = e + 4)
    (fraction : (pfFraction b : ℤ) = ⌊(a / 2 ^ e - 1) * 8⌋) :
    pfMagnitude b ≤ a ∧ a < pfMagnitude b + 2 ^ (e - 3) := by
  have scale_pos : (0 : ℚ) < 2 ^ e := zpow_pos two_pos e
  have magnitude : pfMagnitude b = (1 + (pfFraction b : ℚ) / 8) * 2 ^ e := by
    rw [pfMagnitude, exponent, add_sub_cancel_right]
  have unit : (2 : ℚ) ^ (e - 3) = 1 / 8 * 2 ^ e := by rw [zpow_sub₀ two_ne_zero]; ring
  obtain ⟨floor_le, lt_floor⟩ := Int.floor_eq_iff.mp fraction.symm
  rw [Int.cast_natCast] at floor_le lt_floor
  rw [magnitude, unit, ← add_mul, ← le_div_iff₀ scale_pos, ← div_lt_iff₀ scale_pos]
  constructor <;> linarith

/-- Encoding the number of a byte gives the byte, under both packings (R162 a). -/
theorem pfEncode_pfDecode (b : Byte) : pfEncode wrap (pfDecode b) = some b := by
  have scale_pos : (0 : ℚ) < 2 ^ ((pfExponent b : ℤ) - 4) := zpow_pos two_pos _
  have exponent_lt := pfExponent_lt b
  have low := two_zpow_le_pfMagnitude b
  have high : pfMagnitude b < 2 ^ ((pfExponent b : ℤ) - 4 + 1) := by
    rw [zpow_add_one₀ two_ne_zero]
    linarith [pfMagnitude_le b]
  have significand : (pfMagnitude b / 2 ^ ((pfExponent b : ℤ) - 4) - 1) * 8 = pfFraction b := by
    rw [pfMagnitude, mul_div_cancel_right₀ _ scale_pos.ne']
    ring
  rw [← abs_pfDecode] at low high significand
  obtain ⟨c, encoded, sign, exponent, fraction⟩ := pfEncode_fields (wrap := wrap) low high (by omega) (by omega)
  rw [significand, Int.floor_natCast] at fraction
  rw [pfDecode_neg_iff, ← Bool.eq_iff_iff] at sign
  rw [encoded, eq_of_pfFields sign (by omega) (by omega)]

/-- Different bytes stand for different numbers (R153). -/
theorem pfDecode_injective : Function.Injective pfDecode := fun b c same =>
  Option.some.inj <| by rw [← pfEncode_pfDecode (wrap := .trunc8) b, same, pfEncode_pfDecode]

/-! ### The encoder on Q7 integers -/

section LeadingOne

variable (q : Int)

/-- The magnitude of the number a Q7 integer stands for (R151). -/
theorem abs_q7 : |(q : ℚ) / 128| = (q.natAbs : ℚ) / 128 := by
  rw [abs_div, Nat.cast_natAbs, Int.cast_abs, abs_of_pos (by norm_num : (0 : ℚ) < 128)]

/-- Bit k of a Q7 integer stands for 2^(k - 7) (R151, R156). -/
theorem two_zpow_sub_seven (k : ℕ) : (2 : ℚ) ^ ((k : ℤ) - 7) = 2 ^ k / 128 := by
  rw [zpow_sub₀ two_ne_zero, zpow_natCast]
  norm_num

variable {q}

/-- With the leading 1 at bit k, the e of the number is k - 7 (R156). -/
theorem exponent_of_leading_one (nonzero : q ≠ 0) :
    (2 : ℚ) ^ ((q.natAbs.log2 : ℤ) - 7) ≤ |(q : ℚ) / 128| ∧
      |(q : ℚ) / 128| < 2 ^ ((q.natAbs.log2 : ℤ) - 7 + 1) := by
  have leading : (2 : ℚ) ^ q.natAbs.log2 ≤ q.natAbs := by
    exact_mod_cast Nat.log2_self_le (Int.natAbs_ne_zero.mpr nonzero)
  have nothing_above : (q.natAbs : ℚ) < 2 ^ q.natAbs.log2 * 2 := by
    exact_mod_cast Nat.lt_log2_self
  rw [abs_q7, zpow_add_one₀ two_ne_zero, two_zpow_sub_seven]
  constructor <;> linarith

/-- The truncated fraction is the three bits below the leading 1 (R156). -/
theorem fraction_of_leading_one (nonzero : q ≠ 0) :
    ⌊(|(q : ℚ) / 128| / 2 ^ ((q.natAbs.log2 : ℤ) - 7) - 1) * 8⌋ =
      ((q.natAbs * 8 / 2 ^ q.natAbs.log2 - 8 : ℕ) : ℤ) := by
  have quotient : (|(q : ℚ) / 128| / 2 ^ ((q.natAbs.log2 : ℤ) - 7) - 1) * 8 =
      ((q.natAbs * 8 : ℕ) : ℚ) / (2 ^ q.natAbs.log2 : ℕ) - (8 : ℕ) := by
    rw [abs_q7, two_zpow_sub_seven]
    push_cast
    field
  have eight_le : 8 ≤ q.natAbs * 8 / 2 ^ q.natAbs.log2 := by
    rw [Nat.le_div_iff_mul_le (Nat.two_pow_pos _), mul_comm]
    exact Nat.mul_le_mul_right 8 (Nat.log2_self_le (Int.natAbs_ne_zero.mpr nonzero))
  rw [quotient, Int.floor_sub_natCast, Rat.floor_natCast_div_natCast, Nat.cast_sub eight_le]
  norm_cast

end LeadingOne

/-- The integer encoder is the encoder on the number its argument stands for (R155, R156). -/
theorem pfEncodeQ_eq (wrap : PfWrap) (q : Int) : pfEncodeQ wrap q = pfEncode wrap ((q : ℚ) / 128) := by
  by_cases zero : q = 0
  case pos => simp [zero, pfEncodeQ, pfEncode]
  case neg =>
    obtain ⟨low, high⟩ := exponent_of_leading_one zero
    have sign : (q : ℚ) / 128 < 0 ↔ q < 0 := by rw [div_lt_iff₀ (by norm_num), zero_mul, Int.cast_lt_zero]
    have exponent : (q.natAbs.log2 : ℤ) - 7 + 4 = q.natAbs.log2 - 3 := by ring
    simp only [pfEncodeQ, if_neg zero, pfEncode_eq low high, fraction_of_leading_one zero, exponent, sign,
      BitVec.ofInt_natCast]

/-- The integer encoder has no result exactly for zero (R161). -/
theorem pfEncodeQ_eq_none_iff (wrap : PfWrap) (q : Int) : pfEncodeQ wrap q = none ↔ q = 0 := by
  simp [pfEncodeQ]

end Encoding

/-! ### FADD -/

section Fadd

/-- The Q7 sum stands for the sum of the two decoded numbers (R151, R158). -/
theorem cast_faddSum (v : Word) (k : Nibble) :
    (faddSum v k : ℚ) / 128 = pfDecode (v.extractLsb' 0 8) + pfDecode (k.setWidth 8) := by
  rw [faddSum, Int.cast_add, cast_pfDecodeQ, cast_pfDecodeQ, ← add_mul, mul_div_cancel_right₀ _ (by norm_num)]
  rfl

/-- The sum of a byte's and a nibble's number is zero exactly where the byte is the nibble's with the sign inverted
(R160). -/
theorem pfDecode_add_eq_zero_iff (b : Byte) (k : Nibble) :
    pfDecode b + pfDecode (k.setWidth 8) = 0 ↔ b = 0x80#8 ||| k.setWidth 8 := by
  have inverted : k.setWidth 8 ^^^ 0x80#8 = 0x80#8 ||| k.setWidth 8 := by decide +revert
  rw [add_eq_zero_iff_eq_neg, ← pfDecode_xor_sign, pfDecode_injective.eq_iff, inverted]

/-- Widening a byte puts zeros above it (R158). -/
theorem extractLsb'_zext16 (b : Byte) : (zext16 b).extractLsb' 8 8 = 0x00#8 := by
  apply BitVec.eq_of_toNat_eq
  rw [BitVec.extractLsb'_toNat, toNat_zext16, Nat.shiftRight_eq_div_pow, Nat.div_eq_of_lt b.isLt]
  rfl

variable (r a : RegIdx) (k : Nibble) (s : State)

/-- Where FADD's sum is zero, FADD writes a free byte, counts it, and does nothing else (R160). -/
theorem State.faddWrite_of_zero_sum {wrap : PfWrap} (zero_sum : faddSum (s.getReg a) k = 0) :
    s.faddWrite wrap r a k = (s.setReg r (zext16 (Config.faddZeroResult s.draws))).advanceDraws := by
  rw [State.faddWrite, zero_sum]
  rfl

/-- The register that FADD writes, in both cases (R158, R160). -/
theorem State.getReg_faddWrite (wrap : PfWrap) :
    (s.faddWrite wrap r a k).getReg r =
      zext16 ((pfEncodeQ wrap (faddSum (s.getReg a) k)).getD (Config.faddZeroResult s.draws)) := by
  cases encoded : pfEncodeQ wrap (faddSum (s.getReg a) k) with
  | some b => rw [State.faddWrite_of_encoded encoded, State.getReg_setReg_same, Option.getD_some]
  | none =>
    rw [State.faddWrite_of_zero_sum r a k s ((pfEncodeQ_eq_none_iff _ _).mp encoded), State.getReg_advanceDraws,
      State.getReg_setReg_same, Option.getD_none]

end Fadd

/-! ### The statements -/

/-- Settles O17: the exact sum has an encoding, which the integer encoder finds and FADD writes. -/
theorem faddEncodesExactSum : Obligations.FaddEncodesExactSum := by
  intro r a k s
  refine ⟨decodeWord_pack 0x6#4 r a k, fun sum_ne_zero => ?_⟩
  have nonzero : faddSum (s.getReg a) k ≠ 0 := mt (faddSum_eq_zero_iff _ k).mp sum_ne_zero
  obtain ⟨b, encoded⟩ := Option.ne_none_iff_exists'.mp (mt (pfEncodeQ_eq_none_iff .trunc8 _).mp nonzero)
  refine ⟨b, _, ?exact_sum, exec_fadd r a k s, ?written, ?frame⟩
  case exact_sum => rw [← cast_faddSum, ← pfEncodeQ_eq, encoded]
  case written => rw [State.faddWrite_of_encoded encoded, State.getReg_setReg_same, toNat_zext16]
  case frame => rw [State.faddWrite_of_encoded encoded]; exact s.setReg_onlyRegChanges r _

/-- Settles O18: a number is cancelled by its sign-inverted byte alone, and FADD then writes a widened free byte. -/
theorem faddZeroSumCompletesWithFreeByte : Obligations.FaddZeroSumCompletesWithFreeByte := by
  refine ⟨pfDecode_add_eq_zero_iff, fun r a k s cancels => ?_⟩
  have zero_sum : faddSum (s.getReg a) k = 0 :=
    (faddSum_eq_zero_iff _ k).mpr ((pfDecode_add_eq_zero_iff _ k).mpr cancels)
  refine ⟨_, (exec_fadd r a k s).trans (congrArg _ (s.faddWrite_of_zero_sum r a k zero_sum)), ?high_byte,
    s.setReg_sameRegsBut r _, ⟨rfl, rfl, rfl, rfl⟩, fun _ => rfl, rfl⟩
  case high_byte => rw [State.getReg_advanceDraws, State.getReg_setReg_same, extractLsb'_zext16]

/-- Settles O20: the written word is given by the low byte, the nibble and the count of drawn bytes. -/
theorem faddDependsOnLowByteOnly : Obligations.FaddDependsOnLowByteOnly := by
  intro r a k s u s' u' same_low_byte same_draws executed executed'
  have same_sum : faddSum (s.getReg a) k = faddSum (u.getReg a) k :=
    congrArg (fun b => pfDecodeQ b + pfDecodeQ (packedLiteral k)) same_low_byte
  rw [exec_fadd] at executed executed'
  cases executed
  cases executed'
  rw [State.getReg_faddWrite, State.getReg_faddWrite, same_sum, same_draws]

/-- Settles O24, from the exponent of the leading 1. -/
theorem pfEncodeQRefinesPfEncode : Obligations.PfEncodeQRefinesPfEncode := fun wrap q =>
  ⟨pfEncodeQ_eq wrap q, pfEncodeQ_eq_none_iff wrap q⟩

/-- Settles O25: in range no packing changes a field. -/
theorem pfEncodeFieldsInRange : Obligations.PfEncodeFieldsInRange := fun _ _ _ => pfEncode_fields

/-- Settles O26: the exponent fits, the sign is kept, and the truncation loses less than one unit of the fraction. -/
theorem pfEncodeErrorBelowOneEighth : Obligations.PfEncodeErrorBelowOneEighth := by
  intro v e least most low high
  obtain ⟨e_low, e_high⟩ := exponent_fits least most low high
  obtain ⟨b, encoded, sign, exponent, fraction⟩ := pfEncode_fields (wrap := .trunc8) low high e_low e_high
  obtain ⟨at_most, below⟩ := pfMagnitude_truncates exponent fraction
  have unit : (2 : ℚ) ^ (e - 3) ≤ |v| / 8 := by rw [zpow_sub₀ two_ne_zero]; linarith
  rw [← abs_pfDecode] at at_most below
  exact ⟨b, encoded, (pfDecode_neg_iff b).trans sign, at_most, below, by linarith⟩

/-- Settles O27: `trunc8` is `mask4` with another sign. -/
theorem pfPackingsDifferOnlyInSignBit : Obligations.PfPackingsDifferOnlyInSignBit := by
  intro sign eb mb
  rw [pfPack_trunc8, extractLsb'_pfPack_mask4, extractLsb'_pfPack_mask4]
  refine ⟨rfl, ?_⟩
  change pfSign _ ≠ pfSign _ ↔ _
  rw [pfSign_pfPack_mask4, pfSign_pfPack_mask4]
  cases sign <;> simp

/-- Settles O21, from the fields of the byte. -/
theorem pfDecodeReadsSignExponentFraction : Obligations.PfDecodeReadsSignExponentFraction := by
  intro b
  rw [← toNat_pfSign, ← pfFraction_eq, ← pfExponent_eq]
  refine ⟨?real, ?q7, cast_pfDecodeQ b⟩
  case real => rw [pfDecode]; cases pfSign b <;> simp
  case q7 => rw [pfDecodeQ, Nat.shiftLeft_eq]; cases pfSign b <;> simp

/-- Settles O22, from the magnitude: its leading 1 stands for 2^-4 to 2^11. -/
theorem pfValueSetHasNoZero : Obligations.PfValueSetHasNoZero := by
  intro b
  have exponent_lt := pfExponent_lt b
  have least : 1 / 16 ≤ (2 : ℚ) ^ ((pfExponent b : ℤ) - 4) := calc
    (1 / 16 : ℚ) = 2 ^ (-4 : ℤ) := by norm_num
    _ ≤ 2 ^ ((pfExponent b : ℤ) - 4) := zpow_le_zpow_right₀ one_le_two (by omega)
  have most : (2 : ℚ) ^ ((pfExponent b : ℤ) - 4) ≤ 2048 := calc
    (2 : ℚ) ^ ((pfExponent b : ℤ) - 4) ≤ 2 ^ (11 : ℤ) := zpow_le_zpow_right₀ one_le_two (by omega)
    _ = 2048 := by norm_num
  have low := two_zpow_le_pfMagnitude b
  have high := pfMagnitude_le b
  rw [← abs_pos, abs_pfDecode]
  exact ⟨pfMagnitude_pos b, by linarith, by linarith, pfDecode_xor_sign b⟩

/-- Settles O23, for the exact encoder first. -/
theorem pfEncodeDecodeRoundTrip : Obligations.PfEncodeDecodeRoundTrip := by
  intro b
  refine ⟨?_, pfEncode_pfDecode b⟩
  rw [pfEncodeQ_eq, cast_pfDecodeQ, mul_div_cancel_right₀ _ (by norm_num), pfEncode_pfDecode]

end Sys2Proof.Machine

/-! ## Proofs of the family `44_control.md`

The rules first: the signed comparison as a comparison of two's-complement numbers, what JUMP, BGTJMP and the four HALT
opcodes do, and that the record of past events takes part in no instruction. Then the statements, each from these
rules. -/

namespace Sys2Proof.Machine

/-! ### The signed comparison -/

/-- `signed16` is the two's-complement reading of a word (44_control.md R172). -/
theorem signed16_eq_toInt (v : Word) : signed16 v = v.toInt := by
  rw [signed16, BitVec.toInt_eq_toNat_cond]
  split <;> split <;> omega

/-- BGTJMP's condition compares the two words as two's-complement numbers (R172). -/
theorem signedGreater_iff (a b : Word) : signedGreater a b = true ↔ a.toInt > b.toInt := by
  rw [signedGreater, decide_eq_true_iff, signed16_eq_toInt, signed16_eq_toInt]

/-! ### What the instructions do -/

section Transfers

variable (s : State)

/-- Setting `pc` changes nothing else. -/
theorem State.setPc_onlyPcChanges (v : Word) : OnlyPcChanges s (s.setPc v) :=
  ⟨fun _ => rfl, fun _ => rfl, rfl, rfl, rfl, rfl⟩

/-- A state differs from itself nowhere, so in `pc` at most. -/
theorem State.onlyPcChanges_refl : OnlyPcChanges s s :=
  ⟨fun _ => rfl, fun _ => rfl, rfl, rfl, rfl, rfl⟩

/-- JUMP sets `pc` to its register (44_control.md R171). -/
theorem exec_jump (r : RegIdx) : exec (.jump r) s = .next (s.setPc (s.getReg r)) := rfl

/-- A BGTJMP whose comparison holds sets `pc` to its target (R172). -/
theorem exec_bgtjmp_taken {r : RegIdx} (xy : Byte) (greater : (s.getReg r).toInt > (s.getReg 0x0#4).toInt) :
    exec (.bgtjmp r xy) s = .next (s.setPc (immediateTarget xy)) := by
  rw [exec_bgtjmp, if_pos ((signedGreater_iff _ _).mpr greater)]

/-- A BGTJMP whose comparison fails does nothing (R172). -/
theorem exec_bgtjmp_untaken {r : RegIdx} (xy : Byte) (not_greater : ¬ (s.getReg r).toInt > (s.getReg 0x0#4).toInt) :
    exec (.bgtjmp r xy) s = .next s := by
  rw [exec_bgtjmp, if_neg (mt (signedGreater_iff _ _).mp not_greater)]

/-- The four HALT opcodes have one effect (R173). -/
theorem exec_of_isHalt {i : Instr} (isHalt : IsHalt i) : exec i s = .next s.haltRun := by
  obtain rfl | rfl | rfl | rfl := isHalt <;> rfl

end Transfers

/-! ### The record of past events -/

section PastEvents

variable {s t : State} (past : List Event)

/-- FADD's action neither reads nor writes the record of events (44_control.md R174). -/
theorem State.faddWrite_of_other_events (wrap : PfWrap) (r a : RegIdx) (k : Nibble) (s : State) :
    State.faddWrite wrap r a k { s with events := past } = { s.faddWrite wrap r a k with events := past } := by
  cases encoded : pfEncodeQ wrap (faddSum (s.getReg a) k) with
  | some b =>
    rw [State.faddWrite_of_encoded encoded]
    exact State.faddWrite_of_encoded encoded
  | none =>
    have zero_sum : faddSum (s.getReg a) k = 0 := (pfEncodeQ_eq_none_iff _ _).mp encoded
    rw [State.faddWrite_of_zero_sum r a k s zero_sum]
    exact State.faddWrite_of_zero_sum r a k _ zero_sum

/-- The record of events takes part in no instruction: HALT adds its notice to it, and nothing reads it (R174). -/
theorem exec_of_other_events {i : Instr} (h : exec i s = .next t) :
    ∃ now, exec i { s with events := past } = .next { t with events := now } := by
  cases i with
  | fadd r a k =>
    rw [exec_fadd] at h
    cases h
    exact ⟨past, congrArg _ (State.faddWrite_of_other_events past _ r a k s)⟩
  | bgtjmp r xy =>
    refine ⟨past, ?_⟩
    by_cases greater : (s.getReg r).toInt > (s.getReg 0x0#4).toInt
    · rw [exec_bgtjmp_taken s xy greater] at h
      cases h
      exact exec_bgtjmp_taken _ xy greater
    · rw [exec_bgtjmp_untaken s xy greater] at h
      cases h
      exact exec_bgtjmp_untaken _ xy greater
  | halt | haltOp0 | haltOpE | haltOpF =>
    cases h
    exact ⟨past ++ [.haltNotice], rfl⟩
  | loadm | loadi | store | move | add | or | and | xor | ror | jump =>
    cases h
    exact ⟨past, rfl⟩

end PastEvents

/-! ### The statements -/

/-- Settles O38: JUMP and a taken BGTJMP by what they do, every other instruction because only these two write `pc`. -/
theorem programCounterChangesInThreeWays : Obligations.ProgramCounterChangesInThreeWays := by
  intro s t h inside
  obtain ⟨-, -, ⟨out, -⟩ | ⟨-, executed⟩⟩ := step_next_cases h
  · omega
  refine ⟨fun r is_jump => ?jump, fun r xy is_bgtjmp greater => ?taken, fun no_jump not_taken => ?advance⟩
  case jump =>
    rw [is_jump, exec_jump] at executed
    cases executed
    rfl
  case taken =>
    rw [is_bgtjmp, exec_bgtjmp_taken s.advancePc xy greater] at executed
    cases executed
    exact toNat_immediateTarget xy
  case advance =>
    obtain advanced | ⟨r, is_jump, -⟩ | ⟨r, xy, is_bgtjmp, greater, -⟩ := (exec_effect executed).pc_cases
    · rw [advanced, s.advancePc_pc, State.toNat_pc_add_two inside]
    · exact absurd is_jump (no_jump r)
    · exact absurd ((signedGreater_iff _ _).mp greater) (not_taken r xy is_bgtjmp)

/-- Settles O45: the fault and the instructions add to the record of events and do not read it. -/
theorem eventsHaveNoEffectOnState : Obligations.EventsHaveNoEffectOnState := by
  intro s t past h
  obtain ⟨not_halted, not_faulted, ⟨out, rfl⟩ | ⟨inside, executed⟩⟩ := step_next_cases h
  · exact ⟨past ++ [Event.faultReport .pcOutOfBounds s.pc],
      step_out_of_bounds { s with events := past } not_halted not_faulted out⟩
  · obtain ⟨now, executed_too⟩ := exec_of_other_events past executed
    exact ⟨now, (step_fetching { s with events := past } not_halted not_faulted inside).trans executed_too⟩

/-- Settles O14: the decoder drops the fields s and t, and JUMP sets `pc` alone. -/
theorem jumpTakesWholeRegister : Obligations.JumpTakesWholeRegister := fun r u v s =>
  ⟨decodeWord_pack 0xB#4 r u v, _, exec_jump s r, rfl, s.setPc_onlyPcChanges _⟩

/-- Settles O15, for a taken and for an untaken branch. -/
theorem bgtjmpBranchesOnSignedGreater : Obligations.BgtjmpBranchesOnSignedGreater := by
  intro r xy s
  refine ⟨?decodes, ?executes⟩
  case decodes => rw [append_immediate]; exact decodeWord_encode (.bgtjmp r xy)
  case executes =>
    by_cases greater : (s.getReg r).toInt > (s.getReg 0x0#4).toInt
    · exact ⟨_, exec_bgtjmp_taken s xy greater, fun _ => toNat_immediateTarget xy, absurd greater,
        s.setPc_onlyPcChanges _⟩
    · exact ⟨s, exec_bgtjmp_untaken s xy greater, (absurd · greater), fun _ => rfl, s.onlyPcChanges_refl⟩

/-- Settles O16: the decoder drops every field of a HALT, and a halted core that is not faulted takes no step. -/
theorem everyHaltOpcodeHalts : Obligations.EveryHaltOpcodeHalts := by
  intro r u v
  refine ⟨decodeWord_pack 0xC#4 r u v, decodeWord_pack 0x0#4 r u v, decodeWord_pack 0xE#4 r u v,
    decodeWord_pack 0xF#4 r u v, fun i s isHalt => ?_⟩
  exact ⟨s.haltRun, exec_of_isHalt s isHalt, rfl, rfl, rfl, rfl, fun _ => rfl, fun _ => rfl, rfl, fun not_faulted =>
    ⟨s.haltRun.runState_halted.mpr ⟨rfl, not_faulted⟩, step_of_halted not_faulted rfl⟩⟩

end Sys2Proof.Machine


/-! ## Proofs of the family `60_exceptions.md`

The rule first: what a step that fetches a HALT does, wherever in memory it was fetched from. Then the statement. -/

namespace Sys2Proof.Machine

/-- A HALT fetched in Fetching from inside memory ends the run, on the state after the advance of `pc` (44_control.md
R173, 40_fetch_decode.md R112 to R114). -/
theorem step_of_isHalt {s : State} (fetching : s.Fetching) (inside : s.pc.toNat ≤ 255)
    (isHalt : IsHalt (decodeWord s.fetched)) : step s = .next s.advancePc.haltRun := by
  obtain ⟨not_halted, not_faulted⟩ := fetching
  exact (step_fetching s not_halted not_faulted (by omega)).trans (exec_of_isHalt s.advancePc isHalt)

/-! ### The statement -/

/-- Settles O40: the HALT leaves `pc` beyond memory, but the core is then Halted, so that the bounds of `pc` are not
looked at again and no fault is raised (60_exceptions.md R184). -/
theorem haltAtTopOfMemoryEndsHalted : Obligations.HaltAtTopOfMemoryEndsHalted := by
  intro s fetching top isHalt
  have inside : s.pc.toNat ≤ 255 := by omega
  have not_faulted : s.advancePc.haltRun.faulted = false := fetching.2
  exact ⟨s.advancePc.haltRun, step_of_isHalt fetching inside isHalt, rfl, not_faulted, State.toNat_pc_add_two inside,
    s.advancePc.haltRun.runState_halted.mpr ⟨rfl, not_faulted⟩, step_of_halted not_faulted rfl⟩

end Sys2Proof.Machine

/-! ## Proofs of the family `70_reset_and_hazards.md`

The rules first: each phase in terms of the session's two fields, the host's moves and the pass of the run loop inside and
outside the phase they belong to, and that the loader changes memory only. Then how the session's invariant follows from
the core's, and the statements, each from these rules. -/

namespace Sys2Proof.Machine

/-! ### The phases and the moves -/

section Moves

variable {p q : Session}

/-- The load phase lasts until the `run` event (70_reset_and_hazards.md R203). -/
theorem Session.phase_eq_load_iff : p.phase = .load ↔ p.started = false := by
  unfold Session.phase
  cases p.started with
  | false => simp
  | true => cases p.core.runState <;> simp

/-- The run phase is: started, and the core still in Fetching (R203). -/
theorem Session.phase_eq_run_iff : p.phase = .run ↔ p.started = true ∧ p.core.Fetching := by
  have fetching_iff : p.core.Fetching ↔ p.core.runState = .fetching := p.core.runState_fetching.symm
  rw [fetching_iff, Session.phase]
  cases p.started with
  | false => simp
  | true => cases p.core.runState <;> simp

/-- In the load phase the host's load completes, and is the tolerant byte write (R204). -/
theorem Session.hostLoad_of_load (loading : p.phase = .load) (a : Int) (b : Byte) :
    p.hostLoad a b = .next { p with core := p.core.load a b } := by
  rw [Session.hostLoad, loading]

/-- Outside the load phase the host has no load (R206). -/
theorem Session.hostLoad_of_not_load (not_loading : p.phase ≠ .load) (a : Int) (b : Byte) :
    p.hostLoad a b = .refused .loadOutsideLoadPhase := by
  unfold Session.hostLoad
  split
  case h_1 loading => exact absurd loading not_loading
  case h_2 => rfl

/-- A load that completes was the tolerant byte write (R204). -/
theorem Session.eq_of_hostLoad {a : Int} {b : Byte} (h : p.hostLoad a b = .next q) :
    q = { p with core := p.core.load a b } := by
  by_cases loading : p.phase = .load
  · rw [Session.hostLoad_of_load loading] at h
    cases h
    rfl
  · rw [Session.hostLoad_of_not_load loading] at h
    cases h

/-- An image load that completes wrote the image from address 0 (R100, R204). -/
theorem Session.eq_of_hostLoadImage {ws : List Word} (h : p.hostLoadImage ws = .next q) :
    q = { p with core := p.core.loadWordsAt 0 ws } := by
  unfold Session.hostLoadImage at h
  split at h
  · cases h
    rfl
  · cases h

/-- In the load phase `run` marks the session as started and leaves the core alone (R205). -/
theorem Session.hostRun_of_load (loading : p.phase = .load) : p.hostRun = { p with started := true } := by
  rw [Session.hostRun, loading]

/-- Outside the load phase `run` has no effect (R205). -/
theorem Session.hostRun_of_not_load (not_loading : p.phase ≠ .load) : p.hostRun = p := by
  unfold Session.hostRun
  split
  case h_1 loading => exact absurd loading not_loading
  case h_2 => rfl

/-- Once the run has started, a step of the core is a pass of the run loop (40_fetch_decode.md R110). -/
theorem Session.tick_of_step {s : State} (started : p.started = true) (stepped : step p.core = .next s) :
    p.tick = .next { p with core := s } := by
  simp only [Session.tick, started, stepped, if_true]

/-- A pass of the run loop is taken only once the run has started, and the run stays started (R203). -/
theorem Session.started_of_tick (h : p.tick = .next q) : p.started = true ∧ q.started = true := by
  have started : p.started = true := by
    by_contra not_started
    rw [Session.tick, if_neg not_started] at h
    cases h
  rw [Session.tick_of_step started (Session.step_of_tick h)] at h
  have next_session : { p with core := q.core } = q := Host.Outcome.next.inj h
  exact ⟨started, next_session ▸ started⟩

end Moves

/-! ### The loader changes memory only -/

section LoaderFootprint

variable (s : State)

/-- A load, in range or not, is a change of memory alone (R204). -/
theorem State.load_eq_withMem (a : Int) (b : Byte) : s.load a b = s.withMem (s.load a b).mem := by
  unfold State.load
  split <;> rfl

/-- An image is a change of memory alone (R204). -/
theorem State.loadWordsAt_eq_withMem (a : Nat) (ws : List Word) :
    s.loadWordsAt a ws = s.withMem (s.loadWordsAt a ws).mem := by
  induction ws generalizing s a with
  | nil => rfl
  | cons w ws ih => exact ih ((s.writeByte a _).writeByte (a + 1) _) (a + 2)

end LoaderFootprint

/-! ### The invariant of a session -/

section SessionInvariant

variable {p : Session}

/-- Once the run has started the session's invariant is the core's. -/
theorem Session.inv_of_started (started : p.started = true) (core_inv : p.core.Inv) : p.Inv :=
  ⟨core_inv, fun not_started => by simp [started] at not_started⟩

/-- A change of memory that keeps its canonical form keeps the session's invariant, which says nothing else of memory. -/
theorem Session.withMem_inv (inv : p.Inv) {m : Memory} (wf : Memory.wf m = true) :
    Session.Inv { p with core := p.core.withMem m } := by
  obtain ⟨⟨-, not_both, owed, pc_out⟩, as_reset⟩ := inv
  exact ⟨⟨wf, not_both, owed, pc_out⟩, fun not_started => congrArg (State.withMem · m) (as_reset not_started)⟩

/-- Reset gives a session that meets its invariant, whatever it met before (R200, R201). -/
theorem Session.hostReset_inv (p : Session) : p.hostReset.Inv :=
  ⟨(State.inv_iff_of_fetching ⟨rfl, rfl⟩).mpr ⟨State.reset_wf, rfl⟩, fun _ => rfl⟩

/-- The `run` event keeps the session's invariant: the core is the same (R205). -/
theorem Session.hostRun_inv (inv : p.Inv) : p.hostRun.Inv := by
  by_cases loading : p.phase = .load
  · rw [Session.hostRun_of_load loading]
    exact Session.inv_of_started rfl inv.1
  · rw [Session.hostRun_of_not_load loading]
    exact inv

end SessionInvariant

/-! ### The statements -/

/-- Settles O58: reset and `run` by what they do, the two loads because they change memory only and keep its canonical
form, the pass of the run loop because every step keeps the core's invariant. -/
theorem everyMoveKeepsSessionInvariant : Obligations.EveryMoveKeepsSessionInvariant := by
  intro p inv
  have canonical : Memory.wf p.core.mem = true := inv.1.1
  refine ⟨p.hostReset_inv, Session.hostRun_inv inv, fun a b q loaded => ?load, fun ws q loaded => ?image,
    fun q ticked => ?tick⟩
  case load =>
    rw [Session.eq_of_hostLoad loaded, State.load_eq_withMem]
    exact Session.withMem_inv inv (p.core.load_wf a b canonical)
  case image =>
    rw [Session.eq_of_hostLoadImage loaded, State.loadWordsAt_eq_withMem]
    exact Session.withMem_inv inv (p.core.loadWordsAt_wf 0 ws canonical)
  case tick =>
    exact Session.inv_of_started (Session.started_of_tick ticked).2
      (everyStepKeepsCoreInvariant p.core q.core inv.1 (Session.step_of_tick ticked))

/-- Settles O55: a pass needs the run started and a step of the core, and in Fetching a step is always taken. -/
theorem coreStepsInRunPhaseOnly : Obligations.CoreStepsInRunPhaseOnly := by
  intro p
  rw [Session.phase_eq_run_iff]
  constructor
  · rintro ⟨q, ticked⟩
    exact ⟨(Session.started_of_tick ticked).1, (step_effect (Session.step_of_tick ticked)).1⟩
  · rintro ⟨started, fetching⟩
    obtain ⟨s, stepped⟩ := step_completes_of_fetching fetching
    exact ⟨_, Session.tick_of_step started stepped⟩

/-- Settles O51: the core after reset is the reset state, the count of drawn free bytes apart, which no port reads. -/
theorem hostResetRestoresEverything : Obligations.HostResetRestoresEverything := fun _ =>
  ⟨Session.phase_eq_load_iff.mpr rfl, State.getReg_reset, rfl, State.readByte_reset, ⟨rfl, rfl⟩, rfl⟩

/-- Settles O52, for the load phase and for the other two. -/
theorem loadIsForTheLoadPhaseOnly : Obligations.LoadIsForTheLoadPhaseOnly := fun p a b =>
  ⟨fun loading => ⟨_, Session.hostLoad_of_load loading a b,
      Session.phase_eq_load_iff.mpr ((Session.phase_eq_load_iff (p := p)).mp loading), rfl,
      p.core.load_sameRegs a b, p.core.load_sameControl a b⟩,
    fun not_loading => Session.hostLoad_of_not_load not_loading a b⟩

/-- Settles O54: a session marked as started is not in the load phase. -/
theorem runEventChangesNoCoreState : Obligations.RunEventChangesNoCoreState := by
  refine fun p => ⟨fun loading => ?load, Session.hostRun_of_not_load⟩
  rw [Session.hostRun_of_load loading, ne_eq, Session.phase_eq_load_iff]
  exact ⟨rfl, Bool.noConfusion⟩

/-- Settles O57, from the core's invariant at reset. -/
theorem freshSessionMeetsInvariant : Obligations.FreshSessionMeetsInvariant :=
  ⟨⟨resetMeetsCoreInvariant, fun _ => rfl⟩, Session.phase_eq_load_iff.mpr rfl⟩

end Sys2Proof.Machine

/-! ## Proofs of the family `other`

FADD's sums that are too small to encode, and memory as its 256 bytes. The rules first: the exponent field of such a sum
is negative and spills into the sign bit, so that the encoded byte is one of the magnitude alone; and reads beyond memory
distinguish no memories. Then the statements, each from these rules. -/

namespace Sys2Proof.Machine

/-! ### Sums too small to encode -/

/-- A negative exponent field spills a 1 into the sign bit, so that `trunc8` forgets the sign (43_packed_float.md R157,
R164). -/
theorem pfPack_trunc8_of_negative {eb : Int} (sign : Bool) (mb : BitVec 3) (low : -16 ≤ eb) (negative : eb < 0) :
    pfPack .trunc8 sign eb mb = pfPack .mask4 true eb mb := by
  have spills : (BitVec.ofInt 5 eb).getLsbD 4 = true := by
    interval_cases eb <;> rfl
  rw [pfPack_trunc8, spills, Bool.or_true]

/-- The byte that `trunc8` gives a Q7 magnitude of 1 to 7, whatever its sign (R164): sign bit 1, and the exponent and
fraction of R156. -/
def wrappedByte (m : Nat) : Byte := pfPack .mask4 true ((m.log2 : Int) - 3) (BitVec.ofNat 3 (m * 8 / 2 ^ m.log2 - 8))

/-- Below 8 the leading 1 is at bit 2 or lower, so that the exponent field is negative (R156, R164). -/
theorem pfEncodeQ_of_too_small {q : Int} (nonzero : q ≠ 0) (small : q.natAbs < 8) :
    pfEncodeQ .trunc8 q = some (wrappedByte q.natAbs) := by
  have leading : q.natAbs.log2 < 3 := (Nat.log2_lt (Int.natAbs_ne_zero.mpr nonzero)).mpr small
  rw [pfEncodeQ, if_neg nonzero, wrappedByte]
  exact congrArg some (pfPack_trunc8_of_negative _ _ (by omega) (by omega))

/-- R164's table: each magnitude and its byte under `trunc8`. -/
def wrappedBytes : List (Nat × Byte) :=
  [(1, 0xE8#8), (2, 0xF0#8), (3, 0xF4#8), (4, 0xF8#8), (5, 0xFA#8), (6, 0xFC#8), (7, 0xFE#8)]

/-- The table lists magnitudes of 1 to 7 with the bytes of the packing. -/
theorem wrappedByte_of_mem {m : Nat} {b : Byte} (listed : (m, b) ∈ wrappedBytes) :
    m ≠ 0 ∧ m < 8 ∧ wrappedByte m = b := by
  have every_row : ∀ row ∈ wrappedBytes, row.1 ≠ 0 ∧ row.1 < 8 ∧ wrappedByte row.1 = row.2 := by decide
  exact every_row (m, b) listed

/-! ### Memory as its bytes -/

/-- The 256 bytes of memory decide every read: beyond them each read gives 0x00 (20_memory.md R50). -/
theorem State.readByte_congr {s t : State} (same : ∀ a : Nat, a ≤ 255 → s.readByte a = t.readByte a) (a : Nat) :
    s.readByte a = t.readByte a := by
  by_cases inside : a ≤ 255
  case pos => exact same a inside
  case neg =>
    have outside : Config.memSize ≤ a := Nat.lt_of_not_le inside
    rw [s.readByte_out_of_range outside, t.readByte_out_of_range outside]

/-! ### The statements -/

/-- Settles O19: a sum in the table has the table's byte as its encoding, which FADD writes. -/
theorem faddTooSmallSumGivesWrappedByte : Obligations.FaddTooSmallSumGivesWrappedByte := by
  intro r a k s b listed
  obtain ⟨nonzero, small, wrapped⟩ := wrappedByte_of_mem listed
  have encoded : pfEncodeQ Config.pfWrap (faddSum (s.getReg a) k) = some b :=
    (pfEncodeQ_of_too_small (Int.natAbs_ne_zero.mp nonzero) small).trans (congrArg some wrapped)
  refine ⟨_, (exec_fadd r a k s).trans (congrArg _ (State.faddWrite_of_encoded encoded)), ?written,
    s.setReg_onlyRegChanges r _⟩
  case written => rw [State.getReg_setReg_same, toNat_zext16]

/-- Settles O31: the bytes decide every read, and a canonical memory is decided by its reads. -/
theorem canonicalMemoryIsItsBytes : Obligations.CanonicalMemoryIsItsBytes := by
  refine fun s t canonical_s canonical_t => ⟨fun same_bytes => ?same_data, fun same_data a _ => ?same_bytes⟩
  case same_data => exact Memory.eq_of_read s.mem t.mem canonical_s canonical_t (State.readByte_congr same_bytes)
  case same_bytes => exact congrArg (Memory.read · a) same_data

end Sys2Proof.Machine
